-- ==== Sys2Proof/Word.lean ====
section
/-! DEFINITION. The word of the block (32 bits, 00_scope.md rules R6, R8) and the type of its state vector (10_state.md rule R10). -/

namespace Sys2Proof

/-- A state word, a stream word and an output: 32 bits, unsigned (R6 `W`, R8, R20). -/
abbrev Word := BitVec 32

/-- `MT[0..623]`: exactly 624 words (R10). An index out of 0..623 cannot be written down (R22, R23). -/
abbrev StateVector := Vector Word 624

end Sys2Proof
end

