-- ==== Sys2Proof/Config.lean ====
section
/-! DEFINITION. The open parameters of the spec: `KMAX` (00_scope.md rule R7, 92 D9) and, for the software around
the block, `signedBounds` (45_host_layer.md rule R78, 92 D27). The block has no other parameter (R6). -/

namespace Sys2Proof.Config

/-- `KMAX`, the largest key length SEEDK accepts: the default value of R7. The decoder and `stepWith` take KMAX as an
argument, and so does the assembler; only `step` and `decodeTableWord` are fixed to this default (log entry 2). -/
def kmax : Nat := 65535

/-- The values R7 allows for `KMAX`: 1 ≤ KMAX ≤ 65535. -/
abbrev LegalKmax (k : Nat) : Prop := 1 ≤ k ∧ k ≤ 65535

/-- `signedBounds`, the default of R78: each signed bound becomes the 32-bit word with the same bits (two's complement).
The signed bounded draw takes such a function as an argument: it sees both bounds, and `none` stands for a library that
refuses them, such as the alternative R78 names, refusing negative bounds outright (log entry 14). -/
def signedBounds (smin smax : Int) : Option (Word × Word) := some (BitVec.ofInt 32 smin, BitVec.ofInt 32 smax)

end Sys2Proof.Config
end

