-- ==== Sys2Proof/Syntax.lean ====
section
/-! DEFINITION. The commands of the block: one constructor per row of spec/opcode_table.json (30_encoding.md rule R33). -/

namespace Sys2Proof

/-- The three commands of R33. Twist and tempering are steps inside NEXT, not commands (92 D2). -/
inductive Instr where
  /-- `SEEDS seed` (R34, R46). -/
  | seeds (seed : Word)
  /-- `SEEDK key[0], ..., key[L-1]`, `key[0]` first (R35, R55). -/
  | seedk (key : List Word)
  /-- `NEXT` (R36, R66). -/
  | next
deriving DecidableEq, Repr

end Sys2Proof
end

