-- ==== Sys2Proof/WellFormed.lean ====
section
/-! DEFINITION. Which commands exist for a given `KMAX`: the operand checks the syntax does not make (R50, R42). -/

namespace Sys2Proof

/-- A key has at least 1 and at most `KMAX` words (R50); a seed is any word (R46); NEXT has no operand (R66). -/
def wellFormed (kmax : Nat) : Instr → Bool
  | .seeds _ => true
  | .seedk key => decide (1 ≤ key.length) && decide (key.length ≤ kmax)
  | .next => true

end Sys2Proof
end

