-- ==== Sys2Proof/Decode.lean ====
section
/-! DEFINITION. The header word, the total decoder of frames, the encoder, and the cutting of a word stream into
frames (30_encoding.md rules R31 to R42). -/

namespace Sys2Proof

/-! ### The header word (R31) -/

/-- `OPC`, bits 31:24 (R31). -/
def headerOpc (h : Word) : BitVec 8 := h.extractLsb' 24 8

/-- `RSV`, bits 23:16 (R31). -/
def headerRsv (h : Word) : BitVec 8 := h.extractLsb' 16 8

/-- `LEN`, bits 15:0, the number of operand words, unsigned (R31, R37). -/
def headerLen (h : Word) : Nat := (h.extractLsb' 0 16).toNat

/-- `OPC` of SEEDS (R33). -/
def opcSeeds : BitVec 8 := 0x01#8

/-- `OPC` of SEEDK (R33). -/
def opcSeedk : BitVec 8 := 0x02#8

/-- `OPC` of NEXT (R33). -/
def opcNext : BitVec 8 := 0x03#8

/-! ### The decoder (R40) -/

/-- The three causes for which a frame is refused (R39, R83). -/
inductive Cause where
  /-- `OPC` is not 0x01, 0x02 or 0x03 (R84). -/
  | illegalOpcode
  /-- `OPC` is legal and `RSV` is not 0 (R85). -/
  | reservedNonzero
  /-- `OPC` and `RSV` are legal and `LEN` is not one the command allows (R86). -/
  | badLength
deriving DecidableEq, Repr

/-- What a frame decodes to (R30): one of the commands, or `BAD(status, header)`. -/
inductive Command where
  /-- A legal command. -/
  | instr (i : Instr)
  /-- A refused frame: the cause and the header word, unchanged. -/
  | bad (cause : Cause) (header : Word)
deriving DecidableEq, Repr

/-- Decoding of the frame `(h, ops[0..LEN-1])`: the checks of R40 in its order, the first that fails deciding.
A frame has `LEN` operand words, so for SEEDS `ops` is never empty where `ops[0]` is read; a list that is empty there is
answered as a wrong length (log entry 12). -/
def decodeFrame (kmax : Nat) (h : Word) (ops : List Word) : Command :=
  if headerOpc h ≠ opcSeeds ∧ headerOpc h ≠ opcSeedk ∧ headerOpc h ≠ opcNext then .bad .illegalOpcode h
  else if headerRsv h ≠ 0#8 then .bad .reservedNonzero h
  else if headerOpc h = opcSeeds ∧ headerLen h ≠ 1 then .bad .badLength h
  else if headerOpc h = opcSeedk ∧ (headerLen h = 0 ∨ kmax < headerLen h) then .bad .badLength h
  else if headerOpc h = opcNext ∧ headerLen h ≠ 0 then .bad .badLength h
  else if headerOpc h = opcSeeds then
    match ops with
    | [] => .bad .badLength h
    | seed :: _ => .instr (.seeds seed)
  else if headerOpc h = opcSeedk then .instr (.seedk (ops.take (headerLen h)))
  else .instr .next

/-- `FRAME` with the latest word appended, seen as a frame (R41): complete when the header's `LEN` operand words are
there (at once if `LEN` is 0), whatever `OPC` and `RSV` hold (R32); `none` while words are missing. -/
def completeFrame? (words : List Word) : Option (Word × List Word) :=
  match words with
  | [] => none
  | h :: ops => if ops.length < headerLen h then none else some (h, ops)

/-- The next command of a stream and the rest of the stream: a header, then its `LEN` words (R32, R41); `none` when the
stream ends before the frame is complete. -/
def decode (kmax : Nat) (words : List Word) : Option (Command × List Word) :=
  match words with
  | [] => none
  | h :: rest =>
    if rest.length < headerLen h then none
    else some (decodeFrame kmax h (rest.take (headerLen h)), rest.drop (headerLen h))

/-! ### The encoder (R34 to R36, R42) -/

/-- The header word `OPC | RSV = 0 | LEN` (R31). -/
def header (opc : BitVec 8) (len : Nat) : Word := opc ++ 0x00#8 ++ BitVec.ofNat 16 len

/-- The words of a command, header first (R42). A key of no words or of more than 65535 has no encoding: the encoder is
meant for well-formed commands. -/
def encode : Instr → List Word
  | .seeds seed => [header opcSeeds 1, seed]
  | .seedk key => header opcSeedk key.length :: key
  | .next => [header opcNext 0]

/-! ### The host's numbering of a row's bits -/

/-- `n` operand words taken from a number, the word of bits 31..0 first. -/
def operandWords : Nat → Nat → List Word
  | 0, _ => []
  | n + 1, bits => BitVec.ofNat 32 bits :: operandWords n (bits >>> 32)

/-- The words of an instruction whose bits are `w`: bit 0 is the least significant bit of the header, the operand
words follow from bit 32 on, and every bit from `nbits` on is 0. -/
def tableWords (nbits w : Nat) : Word × List Word :=
  let bits := w % 2 ^ nbits
  let h : Word := BitVec.ofNat 32 bits
  (h, operandWords (headerLen h) (bits >>> 32))

/-- The instruction the decoder reads from those words, at the default `KMAX`; `none` where it refuses. -/
def decodeTableWord (nbits w : Nat) : Option Instr :=
  match decodeFrame Config.kmax (tableWords nbits w).1 (tableWords nbits w).2 with
  | .instr i => some i
  | .bad _ _ => none

end Sys2Proof
end

