-- ==== Sys2Proof/Machine/State.lean ====
section
/-! DEFINITION. The state of one instance of the block (10_state.md rules R10 to R17; the two streams of
20_memory.md rule R20), its faults and refusals, and the state after reset (R19, R96). -/

namespace Sys2Proof.Machine

/-- Every piece of state the spec gives one instance. There is no program counter (R14), no control or status register
(R15), no other register file (R16) and no byte-addressed memory (R20, R21). -/
structure State where
  /-- `MT[0..623]`, the state vector (R10). -/
  mt : StateVector
  /-- `IDX`, the cursor, an integer in 0..624 (R11; log entry 8 on its type). -/
  idx : Fin 625
  /-- `SEEDED`: false from reset until the first seeding (R12). -/
  seeded : Bool
  /-- `FRAME`: the words of a command received so far and not yet executed, header first (R17). -/
  frame : List Word
  /-- The command stream: words the host has sent and the block has not yet taken, oldest first (R20, R30). -/
  commands : List Word
  /-- The response stream: words the block has produced and the host has not yet taken, oldest first (R17, R20, R30). -/
  responses : List Word
deriving DecidableEq, Repr

/-- Reasons to stop with a fault: none. No command raises one: errors are responses (R83, R88), no index is out of range
(R23), and every word sequence has a defined outcome in every state (93 Part 1). Safe: nothing stops early (log entry 11). -/
inductive Fault where
deriving DecidableEq, Repr

/-- Reasons to refuse an instruction. -/
inductive Refusal where
  /-- Raised only by an arm of `exec` whose instruction has no meaning yet; no arm is left that raises it. Safe: a refused
  instruction proves nothing about the hardware. -/
  | notModelled (mnemonic : String)
deriving DecidableEq, Repr

/-- The state after reset (R19, R96): `SEEDED = 0`, `IDX = 624`, `FRAME` empty, no response pending. `MT` is unspecified
by the spec and zero here (log entry 1); no word has been sent yet (log entry 10). -/
def State.reset : State where
  mt := Vector.replicate 624 0#32
  idx := 624
  seeded := false
  frame := []
  commands := []
  responses := []

end Sys2Proof.Machine
end

