-- ==== Sys2Proof/Machine/Constants.lean ====
section
/-! DEFINITION. The fixed constants of the block (00_scope.md rule R6). The counts N = 624 and W = 32 are in the types. -/

namespace Sys2Proof.Machine

/-- `M`, the twist offset (R6). -/
def twistOffset : Nat := 397

/-- `UPPER`, the mask of the top bit (R6). -/
def upperMask : Word := 0x80000000#32

/-- `LOWER`, the mask of the bottom 31 bits (R6). -/
def lowerMask : Word := 0x7fffffff#32

/-- `A`, XORed in when the combined value is odd (R6). -/
def twistConstant : Word := 0x9908b0df#32

/-- `F`, the scalar-seed multiplier (R6). -/
def scalarMultiplier : Word := 1812433253#32

/-- `TB`, the mask of the left shift by 7 (R6). -/
def temperMaskB : Word := 0x9d2c5680#32

/-- `TC`, the mask of the left shift by 15 (R6). -/
def temperMaskC : Word := 0xefc60000#32

/-- `K0`, the scalar seed that starts the key-array seeder (R6). -/
def keyStartSeed : Word := 19650218#32

/-- `K1`, the multiplier of the first key pass (R6). -/
def firstPassMultiplier : Word := 1664525#32

/-- `K2`, the multiplier of the second key pass (R6). -/
def secondPassMultiplier : Word := 1566083941#32

/-- `KTOP`, the value forced into word 0 after key seeding (R6). -/
def keyTopWord : Word := 0x80000000#32

/-- `DSEED`, the default scalar seed of a never-seeded engine (R6). -/
def defaultSeed : Word := 5489#32

end Sys2Proof.Machine
end

