-- ==== Sys2Proof/Machine/Operands.lean ====
section
/-! DEFINITION. The operand forms of the block: reading and writing a state word, and the ways a rule names its index
(20_memory.md rule R23; 00_scope.md section 5 and rule R9). -/

namespace Sys2Proof.Machine

/-- `MT[i]`, a read without side effect (R23). -/
def readWord (mt : StateVector) (i : Fin 624) : Word := mt[i.val]

/-- `MT[i] <- v` (00_scope.md section 5). -/
def writeWord (mt : StateVector) (i : Fin 624) (v : Word) : StateVector := mt.set i.val v

/-- The index `(k + c) mod 624`, the sum taken in the integers (R9). -/
def indexPlus (k : Fin 624) (c : Nat) : Fin 624 := ⟨(k.val + c) % 624, Nat.mod_lt _ (by decide)⟩

/-- The index `i - 1` of a key pass, whose `i` runs over 1..623 only (R52, R53). -/
def indexBefore (i : Fin 624) : Fin 624 := ⟨i.val - 1, Nat.lt_of_le_of_lt (Nat.sub_le _ _) i.isLt⟩

/-- The cursor as an index, when it stands at one: `IDX < 624` (R23 "cursor"; R66). -/
def cursor? (s : State) : Option (Fin 624) :=
  if h : s.idx.val < 624 then some ⟨s.idx.val, h⟩ else none

/-- An index or position as a 32-bit addend (R45, R52, R53). -/
def asWord (n : Nat) : Word := BitVec.ofNat 32 n

/-- `key[j]`: operand word `j` of SEEDK, used whole (R37). -/
def keyWord (key : List Word) (j : Fin key.length) : Word := key[j.val]

end Sys2Proof.Machine
end

