-- ==== Sys2Proof/Machine/Flags.lean ====
section
/-! DEFINITION. The derived predicates of 10_state.md rule R13. The one flag of the block is `SEEDED` (R12); no command
computes a carry, zero or overflow. -/

namespace Sys2Proof.Machine

/-- `EXHAUSTED := (SEEDED = 0) OR (IDX ≥ 624)` (R13). -/
def exhausted (s : State) : Bool := !s.seeded || decide (624 ≤ s.idx.val)

/-- `READY := NOT EXHAUSTED` (R13). -/
def ready (s : State) : Bool := !exhausted s

end Sys2Proof.Machine
end

