-- ==== Sys2Proof/Machine/Ops.lean ====
section
/-! DEFINITION. The operations the commands share: the loop of the pseudocode, the response, and the one way a command
ends in an error (30_encoding.md rules R38, R39; 60_exceptions.md rule R88). -/

namespace Sys2Proof.Machine

/-- `for k in 0..n-1`, ascending, each iteration seeing what the earlier ones wrote (00_scope.md section 5, R26). -/
def forUp {α : Type} (n : Nat) (body : Fin n → α → α) (start : α) : α :=
  Nat.fold n (fun k hk x => body ⟨k, hk⟩ x) start

/-- The result a response reports (R39). -/
inductive Status where
  /-- The command was executed. -/
  | ok
  /-- The frame was refused. -/
  | refused (cause : Cause)
deriving DecidableEq, Repr

/-- `CODE` of a response (R39). -/
def statusCode : Status → BitVec 8
  | .ok => 0x00#8
  | .refused .illegalOpcode => 0x01#8
  | .refused .reservedNonzero => 0x02#8
  | .refused .badLength => 0x03#8

/-- The STATUS word: bits 31:8 zero, `CODE` in bits 7:0 (R38). -/
def statusWord (status : Status) : Word := (statusCode status).zeroExtend 32

/-- `respond(status, data)`: append STATUS, then DATA, to the response stream (R38). -/
def respond (status : Status) (data : Word) (s : State) : State :=
  { s with responses := s.responses ++ [statusWord status, data] }

/-- `raise <Error>(h)`: the command ends with an error response that carries the header word; `MT`, `IDX` and `SEEDED`
stay as they were, and there is no saved state, no handler and no return (R88). -/
def raise (cause : Cause) (h : Word) (s : State) : Host.Outcome State Fault Refusal :=
  .next (respond (.refused cause) h s)

end Sys2Proof.Machine
end

