-- ==== Sys2Proof/Machine/ScalarSeed.lean ====
section
/-! DEFINITION. The scalar seeder and the SEEDS command (40_seed_scalar.md rules R45, R46). -/

namespace Sys2Proof.Machine

/-- `p XOR (p >> 30)`, common to the three seeding recurrences (R45, R52, R53). -/
def foldTop (p : Word) : Word := p ^^^ (p >>> 30)

/-- The word `MT[i]` of R45 from `p = MT[i-1]`: multiply first, then add `i`, modulo 2^32. -/
def scalarNext (p : Word) (i : Nat) : Word := scalarMultiplier * foldTop p + asWord i

/-- The vector part of `InitScalar(s)` (R45): word 0 is the seed, then words 1..623 in ascending order, each from the
word just written. Marked irreducible so that the elaborator never runs the loop by accident; the kernel still can. -/
@[irreducible]
def scalarVector (seed : Word) (mt : StateVector) : StateVector :=
  forUp 623 (fun t mt => writeWord mt t.succ (scalarNext (readWord mt t.castSucc) (t.val + 1)))
    (writeWord mt 0 seed)

/-- `InitScalar(s)` (R45). -/
def initScalar (seed : Word) (s : State) : State :=
  { s with mt := scalarVector seed s.mt, idx := 624, seeded := true }

/-- `SEEDS seed` (R46). -/
def execSeeds (seed : Word) (s : State) : Host.Outcome State Fault Refusal :=
  .next (respond .ok 0#32 (initScalar seed s))

end Sys2Proof.Machine
end

