-- ==== Sys2Proof/Machine/KeySeed.lean ====
section
/-! DEFINITION. The key-array seeder and the SEEDK command (41_seed_key.md rules R50 to R55). -/

namespace Sys2Proof.Machine

/-- The new word of a first-pass step from the old word, `p = MT[i-1]`, `key[j]` and `j` (R52). -/
def firstPassWord (old p keyElement : Word) (j : Nat) : Word :=
  ((old ^^^ (firstPassMultiplier * foldTop p)) + keyElement) + asWord j

/-- The new word of a second-pass step from the old word, `p = MT[i-1]` and `i` (R53). -/
def secondPassWord (old p : Word) (i : Nat) : Word :=
  (old ^^^ (secondPassMultiplier * foldTop p)) - asWord i

/-- What a key pass carries from step to step: the vector and the state position `i`, 1..623 (R52, R53). -/
structure PassState where
  mt : StateVector
  i : Fin 624
deriving DecidableEq, Repr

/-- `i <- i + 1 ; if i ≥ 624: MT[0] <- MT[623] ; i <- 1` (R52, R53). -/
def advanceState (p : PassState) : PassState :=
  if h : p.i.val + 1 < 624 then { p with i := ⟨p.i.val + 1, h⟩ }
  else { mt := writeWord p.mt 0 (readWord p.mt 623), i := 1 }

/-- `j <- j + 1 ; if j ≥ L: j <- 0` (R52). -/
def advanceKey {n : Nat} (j : Fin n) : Fin n :=
  if h : j.val + 1 < n then ⟨j.val + 1, h⟩ else ⟨0, Nat.lt_of_le_of_lt (Nat.zero_le _) j.isLt⟩

/-- One step of the first pass (R52): write `MT[i]`, advance `i`, advance `j`. -/
def firstPassStep (key : List Word) (p : PassState × Fin key.length) : PassState × Fin key.length :=
  let v := firstPassWord (readWord p.1.mt p.1.i) (readWord p.1.mt (indexBefore p.1.i)) (keyWord key p.2) p.2.val
  (advanceState { p.1 with mt := writeWord p.1.mt p.1.i v }, advanceKey p.2)

/-- One step of the second pass (R53): write `MT[i]`, advance `i`. -/
def secondPassStep (p : PassState) : PassState :=
  let v := secondPassWord (readWord p.mt p.i) (readWord p.mt (indexBefore p.i)) p.i.val
  advanceState { p with mt := writeWord p.mt p.i v }

/-- The first pass: `max(624, L)` steps from `i = 1`, `j = 0` (R52). Marked irreducible as `scalarVector` is. -/
@[irreducible]
def firstPass (key : List Word) (nonempty : 0 < key.length) (mt : StateVector) : PassState :=
  ((firstPassStep key)^[max 624 key.length] (⟨mt, 1⟩, ⟨0, nonempty⟩)).1

/-- The second pass: 623 steps, `i` carried over from the first pass (R53). Marked irreducible as `scalarVector` is. -/
@[irreducible]
def secondPass (p : PassState) : PassState := secondPassStep^[623] p

/-- The vector after steps 1 to 4 of the key-array seeder (R51 to R54). -/
def keyVector (key : List Word) (nonempty : 0 < key.length) (mt : StateVector) : StateVector :=
  writeWord (secondPass (firstPass key nonempty (scalarVector keyStartSeed mt))).mt 0 keyTopWord

/-- `SEEDK key[0], ..., key[L-1]` (R55). An empty key never gets here from the decoder; as a term it is answered as the
spec answers the empty key, with BAD_LENGTH and no change of the engine (R50, R86; log entry 7). -/
def execSeedk (key : List Word) (s : State) : Host.Outcome State Fault Refusal :=
  if nonempty : 0 < key.length then
    .next (respond .ok 0#32 { s with mt := keyVector key nonempty s.mt, idx := 624, seeded := true })
  else raise .badLength (header opcSeedk 0) s

end Sys2Proof.Machine
end

