-- ==== Sys2Proof/Machine/Temper.lean ====
section
/-! DEFINITION. The tempering transform and its inverse (43_next_temper.md rules R63, R64). -/

namespace Sys2Proof.Machine

/-- First stage (R63). -/
def temperStage1 (y : Word) : Word := y ^^^ (y >>> 11)

/-- Second stage (R63): the shift is truncated to 32 bits before the AND. -/
def temperStage2 (y : Word) : Word := y ^^^ ((y <<< 7) &&& temperMaskB)

/-- Third stage (R63). -/
def temperStage3 (y : Word) : Word := y ^^^ ((y <<< 15) &&& temperMaskC)

/-- Fourth stage (R63). -/
def temperStage4 (y : Word) : Word := y ^^^ (y >>> 18)

/-- `Temper(y)`: the four stages in order (R63). -/
def temper (y : Word) : Word := temperStage4 (temperStage3 (temperStage2 (temperStage1 y)))

/-- `Untemper(z)` as R64 writes it: stages undone in reverse order, the second and the first by iterating 5 and 3 times
from the stage's own output. No command computes it. -/
def untemper (z : Word) : Word :=
  let y3 : Word := z ^^^ (z >>> 18)
  let y2 : Word := y3 ^^^ ((y3 <<< 15) &&& temperMaskC)
  let y1 : Word := (fun x : Word => y2 ^^^ ((x <<< 7) &&& temperMaskB))^[5] y2
  (fun x : Word => y1 ^^^ (x >>> 11))^[3] y1

end Sys2Proof.Machine
end

