-- ==== Sys2Proof/Machine/Twist.lean ====
section
/-! DEFINITION. The twist (42_twist.md rule R59, in the order of R60). -/

namespace Sys2Proof.Machine

/-- The combined value `y`: bit 31 of `a = MT[k]`, bits 30:0 of `b = MT[(k+1) mod 624]` (R59). -/
def combine (a b : Word) : Word := (a &&& upperMask) ||| (b &&& lowerMask)

/-- `y >> 1`, XORed with the constant when bit 0 of `y` is 1 (R59; `tw` of R61). -/
def twistShift (y : Word) : Word :=
  if y.getLsbD 0 then (y >>> 1) ^^^ twistConstant else y >>> 1

/-- The new `MT[k]` from `MT[k]`, `MT[(k+1) mod 624]` and `src = MT[(k+397) mod 624]` (R59). -/
def twistWord (a b src : Word) : Word := src ^^^ twistShift (combine a b)

/-- One iteration of the loop of R59, in place. -/
def twistStep (k : Fin 624) (mt : StateVector) : StateVector :=
  writeWord mt k
    (twistWord (readWord mt k) (readWord mt (indexPlus k 1)) (readWord mt (indexPlus k twistOffset)))

/-- The loop of R59: `k = 0, 1, ..., 623`, each iteration reading what the earlier ones wrote (R60). Marked irreducible as `scalarVector` is. -/
@[irreducible]
def twistVector (mt : StateVector) : StateVector := forUp 624 twistStep mt

/-- `Twist()`: the loop, then `IDX <- 0`; `SEEDED` is not touched (R59). -/
def twist (s : State) : State := { s with mt := twistVector s.mt, idx := 0 }

end Sys2Proof.Machine
end

