-- ==== Sys2Proof/Machine/Next.lean ====
section
/-! DEFINITION. The NEXT command (43_next_temper.md rules R65, R66). -/

namespace Sys2Proof.Machine

/-- `if SEEDED = 0: InitScalar(5489)` (R65, R66). -/
def seedIfNever (s : State) : State := if s.seeded then s else initScalar defaultSeed s

/-- `y <- MT[k] ; IDX <- k + 1`, answering `Temper(y)`; the word itself keeps its raw value (R66). -/
def takeWord (k : Fin 624) (s : State) : Word × State := (temper (readWord s.mt k), { s with idx := k.succ })

/-- One draw (R66): seed by default if never seeded, twist if the cursor stands at 624 (which leaves it at 0), then take
the word at the cursor. -/
def draw (s : State) : Word × State :=
  match cursor? (seedIfNever s) with
  | some k => takeWord k (seedIfNever s)
  | none => takeWord 0 (twist (seedIfNever s))

/-- `NEXT` (R66): one draw, then `respond(OK, Temper(y))`. -/
def execNext (s : State) : Host.Outcome State Fault Refusal :=
  .next (respond .ok (draw s).1 (draw s).2)

end Sys2Proof.Machine
end

