-- ==== Sys2Proof/Machine/Dispatch.lean ====
section
/-! DEFINITION. exec: one arm per command of Sys2Proof.Instr. -/

namespace Sys2Proof.Machine

def exec (i : Instr) (s : State) : Host.Outcome State Fault Refusal :=
  match i with
  | .seeds seed => Sys2Proof.Machine.execSeeds seed s
  | .seedk key => Sys2Proof.Machine.execSeedk key s
  | .next => Sys2Proof.Machine.execNext s

end Sys2Proof.Machine
end

