-- ==== Sys2Proof/Machine/Fetch.lean ====
section
/-! DEFINITION. Taking words from the command stream into FRAME and executing a decoded command (30_encoding.md rules
R30, R40, R41; 70_reset_and_hazards.md rule R100). -/

namespace Sys2Proof.Machine

/-- What taking the next word of the command stream gives (R41). -/
inductive Fetched where
  /-- The host has sent no further word: the block waits (R41, R108). -/
  | waiting
  /-- The word went into FRAME and the frame is still incomplete. -/
  | stored (s : State)
  /-- The word completed the frame: header, operand words, and the state with FRAME empty. -/
  | complete (h : Word) (ops : List Word) (s : State)
deriving DecidableEq, Repr

/-- Take one word of the command stream into FRAME (R30 word level, R41). -/
def fetch (s : State) : Fetched :=
  match s.commands with
  | [] => .waiting
  | w :: rest =>
    match completeFrame? (s.frame ++ [w]) with
    | none => .stored { s with frame := s.frame ++ [w], commands := rest }
    | some (h, ops) => .complete h ops { s with frame := [], commands := rest }

/-- Execute a command: a legal one by `exec`, a refused one by `raise` (R30, R40). -/
def execCommand (c : Command) (s : State) : Host.Outcome State Fault Refusal :=
  match c with
  | .instr i => exec i s
  | .bad cause h => raise cause h s

/-- The step at the command level (R30, R100): take the next complete frame of the stream, decode it, execute it; with
no complete frame, wait. It is the spec's other level of model: `step` is the word level. -/
def commandStep (kmax : Nat) (s : State) : Host.Outcome State Fault Refusal :=
  match decode kmax s.commands with
  | none => .next s
  | some (c, rest) => execCommand c { s with commands := rest }

/-- Place the words `ws` so that taking the last of them completes the frame: all but the last stand in FRAME, the last
at the head of the command stream. -/
def placeFrame (ws : List Word) (s : State) : State :=
  { s with frame := ws.dropLast, commands := ws.drop (ws.length - 1) ++ s.commands }

end Sys2Proof.Machine
end

