-- ==== Sys2Proof/Machine/Step.lean ====
section
/-! DEFINITION. One step of the block at the word level (30_encoding.md rule R30; 70_reset_and_hazards.md rule R100). -/

namespace Sys2Proof.Machine

/-- One step for a given `KMAX` (R7): take one word; when it completes the frame, decode and execute it at once
(R41). With no word to take the block waits and its state is unchanged (R41, R108; log entry 4). -/
def stepWith (kmax : Nat) (s : State) : Host.Outcome State Fault Refusal :=
  match fetch s with
  | .waiting => .next s
  | .stored s' => .next s'
  | .complete h ops s' => execCommand (decodeFrame kmax h ops) s'

/-- One step at the spec's default `KMAX` (R7). -/
def step (s : State) : Host.Outcome State Fault Refusal := stepWith Config.kmax s

/-- `n` steps for a given `KMAX`, stopping at a fault or a refusal. -/
def runWith (kmax : Nat) : Nat → State → Host.Outcome State Fault Refusal
  | 0, s => .next s
  | n + 1, s =>
    match stepWith kmax s with
    | .next s' => runWith kmax n s'
    | .fault r => .fault r
    | .refused r => .refused r

/-- The state whose very next step takes the last word of the instruction with bits `w` and executes it: the earlier
words stand in FRAME, the last one next on the command stream (log entry 6). -/
def State.withFetchWord (s : State) (nbits w : Nat) : State :=
  placeFrame ((tableWords nbits w).1 :: (tableWords nbits w).2) s

end Sys2Proof.Machine
end

