-- ==== Sys2Proof/Machine/Assembler.lean ====
section
/-! DEFINITION. The assembler's lines and pseudo-instructions (30_encoding.md rules R43, R44). -/

namespace Sys2Proof.Machine

/-- One line of an assembly program (R43), the pseudo-instructions of R44 included. -/
inductive AsmLine where
  /-- `SEEDS <seed>`. -/
  | seeds (seed : Word)
  /-- `SEEDK <k0>, ..., <kL-1>`, L ≥ 1. -/
  | seedk (key : List Word)
  /-- `NEXT`. -/
  | next
  /-- `NEXT n`: NEXT repeated n times. -/
  | nextTimes (n : Nat)
  /-- `SEEDD`: `SEEDS 5489`. -/
  | seedd
  /-- `.word <w0>, <w1>, ...`: raw words. -/
  | word (ws : List Word)
deriving DecidableEq, Repr

/-- The words of a line for a block with this `KMAX`; `none` for a SEEDK whose key has no encoding: no word, or more than
min(KMAX, 65535) (R42). R43 itself says L ≥ 1 only: that the assembler refuses the line is the model's choice (log entries 2
and 18); a program that wants such a frame writes it with `.word`. -/
def AsmLine.words (kmax : Nat) : AsmLine → Option (List Word)
  | .seeds seed => some (encode (.seeds seed))
  | .seedk key => if wellFormed (min kmax 65535) (.seedk key) then some (encode (.seedk key)) else none
  | .next => some (encode .next)
  | .nextTimes n => some (List.replicate n (encode .next)).flatten
  | .seedd => some (encode (.seeds defaultSeed))
  | .word ws => some ws

/-- The words of a program, line after line (R43). -/
def assemble (kmax : Nat) : List AsmLine → Option (List Word)
  | [] => some []
  | line :: rest =>
    match line.words kmax, assemble kmax rest with
    | some ws, some more => some (ws ++ more)
    | _, _ => none

/-! ### The text of a line (R43): mnemonic, operands separated by commas, `;` starts a comment -/

/-- A character that only separates. -/
def isBlank (c : Char) : Bool := c = ' ' || c = '\t' || c = '\r'

/-- A text without its leading and trailing blanks. -/
def trimBlanks (cs : List Char) : List Char :=
  ((cs.dropWhile isBlank).reverse.dropWhile isBlank).reverse

/-- The pieces of a text between the characters `sep`: always at least one piece. -/
def splitAtChar (sep : Char) : List Char → List (List Char)
  | [] => [[]]
  | c :: cs =>
    match splitAtChar sep cs with
    | [] => [[c]]
    | piece :: pieces => if c = sep then [] :: piece :: pieces else (c :: piece) :: pieces

/-- A digit of the base 10 or 16. -/
def digit? (base : Nat) (c : Char) : Option Nat :=
  let n := c.toNat
  let value :=
    if 48 ≤ n ∧ n ≤ 57 then n - 48
    else if 97 ≤ n ∧ n ≤ 102 then n - 87
    else if 65 ≤ n ∧ n ≤ 70 then n - 55
    else base
  if value < base then some value else none

/-- The digits of a numeral, most significant first, read onto an accumulator. -/
def digits? (base : Nat) : Nat → List Char → Option Nat
  | acc, [] => some acc
  | acc, c :: cs =>
    match digit? base c with
    | some d => digits? base (acc * base + d) cs
    | none => none

/-- A numeral: decimal, or hexadecimal after `0x` (R43). -/
def numeral? (cs : List Char) : Option Nat :=
  match cs with
  | [] => none
  | ['0', 'x'] => none
  | '0' :: 'x' :: hex => digits? 16 0 hex
  | _ => digits? 10 0 cs

/-- An operand: a numeral in 0 to 2^32 - 1 (R43). -/
def operand? (cs : List Char) : Option Word :=
  match numeral? (trimBlanks cs) with
  | some n => if n < 2 ^ 32 then some (BitVec.ofNat 32 n) else none
  | none => none

/-- The operands of a line, in order; a line without operand text has none. -/
def operands? (cs : List Char) : Option (List Word) :=
  if trimBlanks cs = [] then some [] else (splitAtChar ',' cs).mapM operand?

/-- A line without its comment and outer blanks, as the mnemonic and the operand text. -/
def lineParts (cs : List Char) : List Char × List Char :=
  let body := trimBlanks (cs.takeWhile (fun c => c ≠ ';'))
  (body.takeWhile (fun c => !isBlank c), body.dropWhile (fun c => !isBlank c))

/-- The lines of assembly a text line stands for: none for a blank or comment line, one otherwise; `none` for a text
that is no line of R43 or R44. -/
def parseLine (cs : List Char) : Option (List AsmLine) :=
  let parts := lineParts cs
  if parts.1 = [] then some []
  else if parts.1 = "SEEDS".toList then
    match operands? parts.2 with
    | some [seed] => some [.seeds seed]
    | _ => none
  else if parts.1 = "SEEDK".toList then
    match operands? parts.2 with
    | some (k :: ks) => some [.seedk (k :: ks)]
    | _ => none
  else if parts.1 = "NEXT".toList then
    if trimBlanks parts.2 = [] then some [.next]
    else (numeral? (trimBlanks parts.2)).map (fun n => [.nextTimes n])
  else if parts.1 = "SEEDD".toList then
    if trimBlanks parts.2 = [] then some [.seedd] else none
  else if parts.1 = ".word".toList then
    match operands? parts.2 with
    | some (w :: ws) => some [.word (w :: ws)]
    | _ => none
  else none

/-- A program text, one command a line (R43), to the words it stands for. -/
def assembleText (kmax : Nat) (text : String) : Option (List Word) :=
  match (splitAtChar '\n' text.toList).mapM parseLine with
  | some lines => assemble kmax lines.flatten
  | none => none

end Sys2Proof.Machine
end

