-- ==== Sys2Proof/Machine/Library.lean ====
section
/-! DEFINITION. The software around the block, outside the block: construction, reseeding and bounded draws
(45_host_layer.md rules R71 to R79). The rejection-sampling variant of R80 is not specified and not here. -/

namespace Sys2Proof.Machine

/-- The library's error kinds (R79). The block raises none of them. -/
inductive LibraryError where
  /-- `min >= max` passed to a bounded draw. -/
  | invalidRange
  /-- The result of a bounded draw does not fit the signed width. -/
  | overflow
  /-- The entropy source could not produce its sequence. -/
  | entropyUnavailable
deriving DecidableEq, Repr

/-- What one call of the entropy source gives (R74): a sequence of values 0..255 of any length, or `none` for a failure.
It is an input of the library, under no other law. -/
abbrev EntropyReading := Option (List (BitVec 8))

/-- One key word per value, zero-extended, in the same order (R75). -/
def entropyKey (values : List (BitVec 8)) : List Word := values.map (fun b => b.zeroExtend 32)

/-- Send one command and take its two response words: what is left is the engine's new state and the DATA word (R71).
A command that does not answer leaves everything as it was; none of the three does that. -/
def call (i : Instr) (s : State) : State × Word :=
  match exec i s with
  | .next t => ({ t with responses := s.responses }, t.responses.getLastD 0#32)
  | .fault _ => (s, 0#32)
  | .refused _ => (s, 0#32)

/-- Default construction and `reseed()` (R72, R73): one SEEDK with the entropy key; when the entropy source fails no
command is sent. An empty sequence is treated as a failure and a longer one than `KMAX` is cut (R75 asks the host for one of
two things in each case; log entry 13). -/
def autoSeed (kmax : Nat) (reading : EntropyReading) (s : State) : Except LibraryError Unit × State :=
  match reading with
  | none => (.error .entropyUnavailable, s)
  | some [] => (.error .entropyUnavailable, s)
  | some (b :: bs) => (.ok (), (call (.seedk ((entropyKey (b :: bs)).take kmax)) s).1)

/-- `construct` (R72). -/
def construct (kmax : Nat) (reading : EntropyReading) (s : State) : Except LibraryError Unit × State :=
  autoSeed kmax reading s

/-- `reseed()` (R73): the default seeding path again, on an existing engine. -/
def reseed (kmax : Nat) (reading : EntropyReading) (s : State) : Except LibraryError Unit × State :=
  autoSeed kmax reading s

/-- `nextInRange(min, max)` (R76): the range is checked before any NEXT is sent; `span` is taken in the integers; the
modulo reduction keeps its bias (R77). -/
def nextInRange (min max : Word) (s : State) : Except LibraryError Word × State :=
  if max.toNat ≤ min.toNat then (.error .invalidRange, s)
  else
    let drawn := call .next s
    (.ok (BitVec.ofNat 32 (drawn.2.toNat % (max.toNat - min.toNat + 1) + min.toNat)), drawn.1)

/-- The signed `nextInRange(smin, smax)` (R78), `bounds` being the open parameter `signedBounds`: the bounds become
words, the unsigned draw runs, and a result above 2^31 - 1 is an overflow, after the draw. Bounds the parameter refuses fail
with InvalidRange and draw nothing; that error is the model's choice, R78 naming the refusal but no error kind for it (log
entry 14). -/
def nextInRangeSigned (bounds : Int → Int → Option (Word × Word)) (smin smax : Int) (s : State) :
    Except LibraryError Int × State :=
  match bounds smin smax with
  | none => (.error .invalidRange, s)
  | some (lo, hi) =>
    match nextInRange lo hi s with
    | (.error e, s') => (.error e, s')
    | (.ok u, s') => if 2 ^ 31 - 1 < u.toNat then (.error .overflow, s') else (.ok (u.toNat : Int), s')

end Sys2Proof.Machine
end

