-- ==== Sys2Proof/Machine/Environment.lean ====
section
/-! DEFINITION. What the world outside does to the block (70_reset_and_hazards.md rules R96 to R98, R108), and several
instances side by side (10_state.md rule R18, 60_exceptions.md rule R93). -/

namespace Sys2Proof.Machine

/-- The host appends words to the command stream (R30, R108). -/
def hostSend (ws : List Word) (s : State) : State := { s with commands := s.commands ++ ws }

/-- The host takes the oldest word of the response stream, which consumes it (R23, R30); `none` when there is none. -/
def hostTake (s : State) : Option (Word × State) :=
  match s.responses with
  | [] => none
  | w :: rest => some (w, { s with responses := rest })

/-- The reset event (R96): `SEEDED`, `IDX` and `FRAME` as after reset, every response word not yet taken discarded, and
`MT` unspecified: the words are the environment's, any 624 of them. Words on the command stream that the block has not
taken yet stay (log entry 5). -/
def resetEvent (unspecified : StateVector) (s : State) : State :=
  { s with mt := unspecified, idx := 624, seeded := false, frame := [], responses := [] }

/-- Everything that can happen to one instance: the host's moves of R108, and a step of the block itself (R100). -/
inductive Event where
  /-- The host sends one word. -/
  | send (w : Word)
  /-- The host takes one response word; nothing happens when there is none. -/
  | take
  /-- Reset; the words `MT` holds afterwards are unspecified (R96), so any are allowed. -/
  | reset (unspecified : StateVector)
  /-- The block takes one step. -/
  | tick
deriving DecidableEq, Repr

/-- The state after an event. -/
def applyEvent (kmax : Nat) (e : Event) (s : State) : State :=
  match e with
  | .send w => hostSend [w] s
  | .take => ((hostTake s).map Prod.snd).getD s
  | .reset unspecified => resetEvent unspecified s
  | .tick =>
    match stepWith kmax s with
    | .next s' => s'
    | .fault _ => s
    | .refused _ => s

/-- Any number of instances, each with a state of its own (R93). -/
abbrev System := List State

/-- An event at instance `k`: only the state of instance `k` is read or written (R18, R93). -/
def System.applyAt (kmax k : Nat) (e : Event) (sys : System) : System := List.modify sys k (applyEvent kmax e)

end Sys2Proof.Machine
end

