-- ==== Sys2Proof/Safety.lean ====
section
/-! DEFINITION. What counts as a sound state of the block, in the terms the statements use (10_state.md rules R11, R17,
R19; 70_reset_and_hazards.md rule R101; 43_next_temper.md rule R70). -/

namespace Sys2Proof.Machine

/-- `FRAME` between steps: empty, or a header with fewer operand words than its `LEN` says (R17, R41). -/
def frameOpen (frame : List Word) : Bool :=
  match frame with
  | [] => true
  | h :: ops => decide (ops.length < headerLen h)

/-- A sound state: `FRAME` is open (R17), and a never-seeded engine has its cursor at 624 (R19 I-b). I-a and I-c of R19
hold by the types of `IDX` and `MT`. -/
def Sound (s : State) : Prop := frameOpen s.frame = true ∧ (s.seeded = false → s.idx = 624)

/-- The words that reach an output are not all zero: bit 31 of word 0, or one of the words 1..623. The low 31 bits of
word 0 reach none (R54, R70). -/
def NotAllZero (mt : StateVector) : Prop :=
  (readWord mt 0).getLsbD 31 = true ∨ ∃ k : Fin 624, k ≠ 0 ∧ readWord mt k ≠ 0#32

/-- A seeded engine never holds the all-zero vector (R70). -/
def Live (s : State) : Prop := s.seeded = true → NotAllZero s.mt

/-- The block waits inside a frame: stuck until the host sends more words or resets (R101). -/
def Stuck (s : State) : Prop := s.commands = [] ∧ s.frame ≠ []

end Sys2Proof.Machine
end

