-- ==== Sys2Proof/Certificates/Slice0/Obligations.lean ====
section
/-! DEFINITION. The statements for the provers. The helper relations of namespace Sys2Proof.Rules write rules of the
spec out a second time, with numerals and plain indices, so that a statement does not lean on the model's own functions. -/

namespace Sys2Proof.Rules

open Sys2Proof Sys2Proof.Machine

/-- The words of a scalar seeding with `seed` (R45). -/
def ScalarSeeded (seed : Word) (mt : StateVector) : Prop :=
  readWord mt 0 = seed ∧
  ∀ n : Fin 623, readWord mt n.succ =
    1812433253#32 * (readWord mt n.castSucc ^^^ (readWord mt n.castSucc >>> 30)) + BitVec.ofNat 32 (n.val + 1)

/-- One step of the first key pass takes the vector `m` at positions `i`, `j` to `m'` at `i'`, `j'` (R52). -/
def FirstPassRule (key : List Word) (m m' : StateVector) (i j i' j' : Nat) : Prop :=
  ∃ (hi : 1 ≤ i ∧ i ≤ 623) (hj : j < key.length),
    readWord m' ⟨i, by omega⟩ =
      ((readWord m ⟨i, by omega⟩ ^^^
        (1664525#32 * (readWord m ⟨i - 1, by omega⟩ ^^^ (readWord m ⟨i - 1, by omega⟩ >>> 30)))) + key[j]) +
        BitVec.ofNat 32 j ∧
    readWord m' 0 = (if 624 ≤ i + 1 then readWord m' 623 else readWord m 0) ∧
    (∀ k : Fin 624, k.val ≠ i → k ≠ 0 → readWord m' k = readWord m k) ∧
    i' = (if 624 ≤ i + 1 then 1 else i + 1) ∧
    j' = (if key.length ≤ j + 1 then 0 else j + 1)

/-- One step of the second key pass takes the vector `m` at position `i` to `m'` at `i'` (R53). -/
def SecondPassRule (m m' : StateVector) (i i' : Nat) : Prop :=
  ∃ (hi : 1 ≤ i ∧ i ≤ 623),
    readWord m' ⟨i, by omega⟩ =
      (readWord m ⟨i, by omega⟩ ^^^
        (1566083941#32 * (readWord m ⟨i - 1, by omega⟩ ^^^ (readWord m ⟨i - 1, by omega⟩ >>> 30)))) -
        BitVec.ofNat 32 i ∧
    readWord m' 0 = (if 624 ≤ i + 1 then readWord m' 623 else readWord m 0) ∧
    (∀ k : Fin 624, k.val ≠ i → k ≠ 0 → readWord m' k = readWord m k) ∧
    i' = (if 624 ≤ i + 1 then 1 else i + 1)

/-- The combined value and its twist: `tw(mix(u, l))` (R61). -/
def twMix (u l : Word) : Word :=
  let y := (u &&& 0x80000000#32) ||| (l &&& 0x7fffffff#32)
  (y >>> 1) ^^^ (if y.getLsbD 0 then 0x9908b0df#32 else 0#32)

/-- Commands one after another, at the command level (R30, R103). -/
def runCommands : List Command → State → Host.Outcome State Fault Refusal
  | [], s => .next s
  | c :: cs, s =>
    match execCommand c s with
    | .next t => runCommands cs t
    | .fault r => .fault r
    | .refused r => .refused r

/-- A frame: a header with exactly the operand words it announces (R32, R41). -/
def IsFrame (f : Word × List Word) : Prop := f.2.length = headerLen f.1

/-- The words of a list of frames, in stream order. -/
def frameWords (fs : List (Word × List Word)) : List Word := (fs.map fun f => f.1 :: f.2).flatten

end Sys2Proof.Rules

open Sys2Proof Sys2Proof.Machine Sys2Proof.Rules

/-! ### Encoding and decoding -/

/-- R42: the three encodings, the round trip at every operand value with anything following, and no second encoding:
whatever decodes to a command is that command's encoding, and the command is well formed (so a SEEDK whose key is empty or
longer than KMAX has none). -/
def Obligations.EncodeThenDecodeIsIdentity : Prop :=
  ∀ kmax, Config.LegalKmax kmax →
    (∀ seed, encode (.seeds seed) = [0x01000001#32, seed]) ∧
    (∀ key, wellFormed kmax (.seedk key) = true →
      encode (.seedk key) = (0x02000000#32 ||| BitVec.ofNat 32 key.length) :: key) ∧
    encode .next = [0x03000000#32] ∧
    (∀ i, wellFormed kmax i = true → ∀ rest, decode kmax (encode i ++ rest) = some (.instr i, rest)) ∧
    (∀ h ops i, ops.length = headerLen h → decodeFrame kmax h ops = .instr i →
      wellFormed kmax i = true ∧ h :: ops = encode i)

/-- R40: the verdict on every frame, in the order of the checks, with the header's fields as numbers; and a refused frame
executes as an error response with its code and its header, nothing else changing. -/
def Obligations.DecoderChecksInOrder : Prop :=
  (∀ cause h s, execCommand (.bad cause h) s = .next
    { s with responses := s.responses ++
      [match cause with | .illegalOpcode => 1#32 | .reservedNonzero => 2#32 | .badLength => 3#32, h] }) ∧
  ∀ (kmax : Nat) (h : Word) (ops : List Word) (opc rsv len : Nat),
    opc = h.toNat / 2 ^ 24 → rsv = h.toNat / 2 ^ 16 % 2 ^ 8 → len = h.toNat % 2 ^ 16 → ops.length = len →
    (opc ≠ 1 ∧ opc ≠ 2 ∧ opc ≠ 3 → decodeFrame kmax h ops = .bad .illegalOpcode h) ∧
    ((opc = 1 ∨ opc = 2 ∨ opc = 3) ∧ rsv ≠ 0 → decodeFrame kmax h ops = .bad .reservedNonzero h) ∧
    (opc = 1 ∧ rsv = 0 ∧ len ≠ 1 → decodeFrame kmax h ops = .bad .badLength h) ∧
    (opc = 2 ∧ rsv = 0 ∧ (len = 0 ∨ kmax < len) → decodeFrame kmax h ops = .bad .badLength h) ∧
    (opc = 3 ∧ rsv = 0 ∧ len ≠ 0 → decodeFrame kmax h ops = .bad .badLength h) ∧
    (opc = 1 ∧ rsv = 0 ∧ len = 1 → ∃ seed, ops = [seed] ∧ decodeFrame kmax h ops = .instr (.seeds seed)) ∧
    (opc = 2 ∧ rsv = 0 ∧ 1 ≤ len ∧ len ≤ kmax → decodeFrame kmax h ops = .instr (.seedk ops)) ∧
    (opc = 3 ∧ rsv = 0 ∧ len = 0 → decodeFrame kmax h ops = .instr .next)

/-- 95 section 7: words of the spec's encoding table decode to the commands they stand for, and the nearest refused
headers are refused with their codes (KMAX = 65535, and 624 for the last two). -/
def Obligations.SampleWordsDecode : Prop :=
  decode 65535 [0x03000000#32] = some (.instr .next, []) ∧
  decode 65535 [0x01000001#32, 0x00001571#32] = some (.instr (.seeds 5489#32), []) ∧
  decode 65535 [0x02000004#32, 0x123#32, 0x234#32, 0x345#32, 0x456#32, 0x03000000#32] =
    some (.instr (.seedk [0x123#32, 0x234#32, 0x345#32, 0x456#32]), [0x03000000#32]) ∧
  decode 65535 [0x02000000#32] = some (.bad .badLength 0x02000000#32, []) ∧
  decode 65535 [0x03010001#32, 0x55#32] = some (.bad .reservedNonzero 0x03010001#32, []) ∧
  decode 65535 [0x04000000#32] = some (.bad .illegalOpcode 0x04000000#32, []) ∧
  (∀ ops, decodeFrame 624 0x02000270#32 ops = .instr (.seedk (ops.take 624))) ∧
  (∀ ops, decodeFrame 624 0x02000271#32 ops = .bad .badLength 0x02000271#32)

/-! ### Framing and the step -/

/-- R30 (word level), R17, R41: when the next word completes a frame that decodes to a command, the step is that command's
`exec` on the state with the word taken and FRAME emptied. That the step which takes the last word also executes the frame
is the model's reading of R30, R17 and R41 (log entry 3, DEDUCED); R100 words it as a step of its own. `step` is `stepWith` at the spec's default KMAX (log entry 2). -/
def Obligations.StepRunsTheDecodedCommand : Prop :=
  (∀ kmax s w rest h ops i, s.commands = w :: rest → s.frame ++ [w] = h :: ops → ops.length = headerLen h →
    decodeFrame kmax h ops = .instr i →
    stepWith kmax s = exec i { s with frame := [], commands := rest }) ∧
  (∀ s w rest h ops i, s.commands = w :: rest → s.frame ++ [w] = h :: ops → ops.length = headerLen h →
    decodeFrame Config.kmax h ops = .instr i →
    step s = exec i { s with frame := [], commands := rest })

/-- R88: a refused frame appends (CODE, header) to the responses, FRAME is emptied, and nothing else changes. That the
very step which takes the last word does so is the model's reading of R30 (log entry 3, DEDUCED). -/
def Obligations.RefusedFrameChangesOnlyResponses : Prop :=
  ∀ kmax s w rest h ops cause, s.commands = w :: rest → s.frame ++ [w] = h :: ops → ops.length = headerLen h →
    decodeFrame kmax h ops = .bad cause h →
    stepWith kmax s = .next
      { mt := s.mt, idx := s.idx, seeded := s.seeded, frame := [], commands := rest,
        responses := s.responses ++
          [match cause with | .illegalOpcode => 1#32 | .reservedNonzero => 2#32 | .badLength => 3#32, h] }

/-- R41, R101: a word that does not complete its frame goes into FRAME and nothing else happens; with no word to take
the block waits, its state unchanged (that the wait is a step that changes nothing is log entry 4). -/
def Obligations.IncompleteFrameWaits : Prop :=
  (∀ kmax s w rest h ops, s.commands = w :: rest → s.frame ++ [w] = h :: ops → ops.length < headerLen h →
    stepWith kmax s = .next { s with frame := s.frame ++ [w], commands := rest }) ∧
  (∀ kmax s, s.commands = [] → stepWith kmax s = .next s) ∧
  (∀ kmax s h ops, s.frame = [] → s.commands = h :: ops → ops.length < headerLen h →
    Stuck { s with frame := h :: ops, commands := [] } ∧
      ∀ n, ops.length < n → runWith kmax n s = .next { s with frame := h :: ops, commands := [] })

/-- R30: the two levels of model agree. From an empty FRAME, the word-level steps over the words of one frame give what
decoding and executing the frame gives, and what one command-level step gives. That these are 1 + LEN steps, one a word, the
last of them executing, is log entry 3 (DEDUCED). -/
def Obligations.WordLevelAgreesWithCommandLevel : Prop :=
  ∀ kmax s h ops rest, s.frame = [] → s.commands = h :: (ops ++ rest) → ops.length = headerLen h →
    runWith kmax (1 + headerLen h) s = execCommand (decodeFrame kmax h ops) { s with commands := rest } ∧
    runWith kmax (1 + headerLen h) s = commandStep kmax s

/-- R101, R103: a stream of whole frames is executed frame by frame in order, with exactly two response words for each
frame, those of the first frames before those of the later ones. That it takes one step a word, the last word of a frame
executing it, is the word level of R30 as log entry 3 reads it (DEDUCED). -/
def Obligations.FramesRunInOrder : Prop :=
  ∀ kmax s (fs more : List (Word × List Word)), s.frame = [] → (∀ f ∈ fs ++ more, IsFrame f) →
    s.commands = frameWords (fs ++ more) →
    ∃ t u, runCommands (fs.map fun f => decodeFrame kmax f.1 f.2) { s with commands := [] } = .next t ∧
      runCommands (more.map fun f => decodeFrame kmax f.1 f.2) t = .next u ∧
      runWith kmax (frameWords fs).length s = .next { t with commands := frameWords more } ∧
      runWith kmax (frameWords (fs ++ more)).length s = .next u ∧
      t.responses.length = s.responses.length + 2 * fs.length ∧
      ∃ new, u.responses = t.responses ++ new ∧ new.length = 2 * more.length

/-- R83, R88: no step of the block faults or is refused by the model. -/
def Obligations.EveryStepAnswersNext : Prop :=
  ∀ kmax s, ∃ t, stepWith kmax s = .next t

/-- R38, R39, R88: a step that completes a frame, its operand words being exactly the LEN announced, appends one response
of two words, STATUS being one of 0, 1, 2, 3, and empties FRAME; a step that stores a word, or waits, appends nothing. That
the step which takes the completing word is the one that responds is the model's reading of R30 (log entry 3, DEDUCED). -/
def Obligations.OneTwoWordResponsePerFrame : Prop :=
  ∀ kmax s t, stepWith kmax s = .next t →
    (∀ w rest h ops, s.commands = w :: rest → s.frame ++ [w] = h :: ops → ops.length = headerLen h →
      t.frame = [] ∧ ∃ status data, t.responses = s.responses ++ [status, data] ∧
        (status = 0#32 ∨ status = 1#32 ∨ status = 2#32 ∨ status = 3#32) ∧
        (status ≠ 0#32 → data = h ∧ t.mt = s.mt ∧ t.idx = s.idx ∧ t.seeded = s.seeded)) ∧
    (∀ w rest h ops, s.commands = w :: rest → s.frame ++ [w] = h :: ops → ops.length < headerLen h →
      t.responses = s.responses) ∧
    (s.commands = [] → t.responses = s.responses)

/-- R17: the response stream never feeds back. What the host has or has not taken makes no difference to a step but
for the words already standing there. -/
def Obligations.ResponsesNeverFeedBack : Prop :=
  ∀ kmax s older, ∃ (t : State) (new : List Word), stepWith kmax s = .next { t with responses := s.responses ++ new } ∧
    stepWith kmax { s with responses := older } = .next { t with responses := older ++ new }

/-! ### SEEDS -/

/-- R45: SEEDS completes in every state; the words follow the recurrence from the seed, the cursor is 624, the flag is
set; the response is (0, 0) (R46) and FRAME and the command stream are as before. -/
def Obligations.SeedsFollowsTheRecurrence : Prop :=
  ∀ seed s, ∃ t, exec (.seeds seed) s = .next t ∧
    ScalarSeeded seed t.mt ∧ t.idx = 624 ∧ t.seeded = true ∧
    t.responses = s.responses ++ [0x00000000#32, 0x00000000#32] ∧ t.frame = s.frame ∧ t.commands = s.commands

/-- R47: after SEEDS the engine is a function of the seed alone, distinct seeds give distinct vectors, and the first draw
twists. -/
def Obligations.ScalarSeedingForgetsThePast : Prop :=
  (∀ seed s s' t t', exec (.seeds seed) s = .next t → exec (.seeds seed) s' = .next t' →
    t.mt = t'.mt ∧ t.idx = t'.idx ∧ t.seeded = t'.seeded) ∧
  (∀ seed seed' s s' t t', exec (.seeds seed) s = .next t → exec (.seeds seed') s' = .next t' → seed ≠ seed' →
    t.mt ≠ t'.mt) ∧
  (∀ seed s t u, exec (.seeds seed) s = .next t → exec .next t = .next u →
    u.mt = twistVector t.mt ∧ u.idx = 1 ∧ u.responses = t.responses ++ [0#32, temper (readWord (twistVector t.mt) 0)])

/-! ### SEEDK -/

/-- R51 to R55: SEEDK with any key of at least one word completes in every state; the vector comes from the scalar
seeding with 19650218 by max(624, L) steps of the first pass and 623 of the second, word 0 forced; the cursor is 624, the
flag is set, the response is (0, 0), and FRAME and the command stream are as before. -/
def Obligations.SeedkFollowsTheTwoPasses : Prop :=
  ∀ (key : List Word) s, 0 < key.length → ∃ t, exec (.seedk key) s = .next t ∧
    t.idx = 624 ∧ t.seeded = true ∧ t.responses = s.responses ++ [0x00000000#32, 0x00000000#32] ∧
    t.frame = s.frame ∧ t.commands = s.commands ∧
    ∃ (p q : Nat → StateVector) (i j i₂ : Nat → Nat),
      ScalarSeeded 19650218#32 (p 0) ∧ i 0 = 1 ∧ j 0 = 0 ∧
      (∀ n < max 624 key.length, FirstPassRule key (p n) (p (n + 1)) (i n) (j n) (i (n + 1)) (j (n + 1))) ∧
      q 0 = p (max 624 key.length) ∧ i₂ 0 = i (max 624 key.length) ∧
      (∀ n < 623, SecondPassRule (q n) (q (n + 1)) (i₂ n) (i₂ (n + 1))) ∧
      readWord t.mt 0 = 0x80000000#32 ∧ ∀ k : Fin 624, k ≠ 0 → readWord t.mt k = readWord (q 623) k

/-- R56, R69: after SEEDK the engine is a function of the key alone. -/
def Obligations.KeySeedingForgetsThePast : Prop :=
  ∀ (key : List Word) s s' t t', 0 < key.length → exec (.seedk key) s = .next t → exec (.seedk key) s' = .next t' →
    t.mt = t'.mt ∧ t.idx = t'.idx ∧ t.seeded = t'.seeded

/-- R56: after the first pass the state position is 2 for a key of at most 624 words and 1 + (L mod 623) for a longer
one; the second pass ends at the position it started from. -/
def Obligations.KeyPassPositions : Prop :=
  (∀ (key : List Word) (nonempty : 0 < key.length) mt,
    (firstPass key nonempty mt).i.val = if key.length ≤ 624 then 2 else 1 + key.length % 623) ∧
  (∀ p : PassState, p.i ≠ 0 → (secondPass p).i = p.i)

/-- R53: from any position 1..623 the 623 steps of the second pass target each word 1..623 exactly once. -/
def Obligations.SecondPassTargetsEachWordOnce : Prop :=
  ∀ p : PassState, p.i ≠ 0 → ∀ k : Fin 624, k ≠ 0 →
    ∃ n < 623, (secondPassStep^[n] p).i = k ∧ ∀ n' < 623, (secondPassStep^[n'] p).i = k → n' = n

/-- R86, R50: a SEEDK frame with no key words is refused with BAD_LENGTH. As a command term, which no frame decodes to,
the empty key is answered the same way, which is the model's choice (log entry 7). -/
def Obligations.EmptyKeyIsRefused : Prop :=
  (∀ kmax ops, decodeFrame kmax 0x02000000#32 ops = .bad .badLength 0x02000000#32) ∧
  (∀ s, exec (.seedk []) s = .next { s with responses := s.responses ++ [3#32, 0x02000000#32] })

/-! ### The twist and the tempering -/

/-- R59: the twist is 624 single writes in ascending order, each computed from the vector the earlier ones left; then the
cursor is 0 and nothing else has changed. -/
def Obligations.TwistIsAscendingInPlace : Prop :=
  ∀ s : State, ∃ v : Nat → StateVector, v 0 = s.mt ∧ twist s = { s with mt := v 624, idx := 0 } ∧
    ∀ k : Fin 624,
      readWord (v (k.val + 1)) k =
        readWord (v k.val) ⟨(k.val + 397) % 624, Nat.mod_lt _ (by decide)⟩ ^^^
          twMix (readWord (v k.val) k) (readWord (v k.val) ⟨(k.val + 1) % 624, Nat.mod_lt _ (by decide)⟩) ∧
      ∀ j : Fin 624, j ≠ k → readWord (v (k.val + 1)) j = readWord (v k.val) j

/-- R61: the closed form of the twist, in three segments. -/
def Obligations.TwistClosedForm : Prop :=
  ∀ o n : StateVector, n = twistVector o →
    (∀ k (h : k ≤ 226), readWord n ⟨k, by omega⟩ =
      readWord o ⟨k + 397, by omega⟩ ^^^ twMix (readWord o ⟨k, by omega⟩) (readWord o ⟨k + 1, by omega⟩)) ∧
    (∀ k (h : 227 ≤ k ∧ k ≤ 622), readWord n ⟨k, by omega⟩ =
      readWord n ⟨k - 227, by omega⟩ ^^^ twMix (readWord o ⟨k, by omega⟩) (readWord o ⟨k + 1, by omega⟩)) ∧
    readWord n 623 = readWord n 396 ^^^ twMix (readWord o 623) (readWord n 0)

/-- R63: the four stages of the tempering, bit by bit. -/
def Obligations.TemperStagesBitByBit : Prop :=
  ∀ y : Word,
    (∀ i < 32, (temperStage1 y).getLsbD i = (y.getLsbD i ^^ (decide (i + 11 < 32) && y.getLsbD (i + 11)))) ∧
    (∀ i < 32, (temperStage2 y).getLsbD i =
      (y.getLsbD i ^^ (decide (7 ≤ i) && y.getLsbD (i - 7) && Nat.testBit 0x9d2c5680 i))) ∧
    (∀ i < 32, (temperStage3 y).getLsbD i =
      (y.getLsbD i ^^ (decide (15 ≤ i) && y.getLsbD (i - 15) && Nat.testBit 0xefc60000 i))) ∧
    (∀ i < 32, (temperStage4 y).getLsbD i = (y.getLsbD i ^^ (decide (i + 18 < 32) && y.getLsbD (i + 18)))) ∧
    temper y = temperStage4 (temperStage3 (temperStage2 (temperStage1 y)))

/-- R64: tempering sends 0 to 0, is linear over XOR, and is a bijection with the inverse R64 writes out. -/
def Obligations.TemperIsALinearBijection : Prop :=
  temper 0#32 = 0#32 ∧
  (∀ a b, temper (a ^^^ b) = temper a ^^^ temper b) ∧
  (∀ y, untemper (temper y) = y) ∧
  (∀ z, temper (untemper z) = z)

/-! ### NEXT -/

/-- R66: NEXT completes in every state, in one of three ways: a ready engine hands out the word at the cursor and
changes no word; a seeded engine at cursor 624 twists first; a never-seeded one first seeds with 5489. FRAME and the command
stream are as before. -/
def Obligations.NextDrawsOneWord : Prop :=
  (∀ s (k : Fin 624), s.seeded = true → s.idx.val = k.val →
    exec .next s = .next { s with idx := k.succ, responses := s.responses ++ [0#32, temper (readWord s.mt k)] }) ∧
  (∀ s, s.seeded = true → s.idx = 624 →
    exec .next s = .next
      { s with
        mt := twistVector s.mt
        idx := 1
        responses := s.responses ++ [0#32, temper (readWord (twistVector s.mt) 0)] }) ∧
  (∀ s, s.seeded = false → ∃ m, ScalarSeeded 5489#32 m ∧
    exec .next s = .next
      { s with
        mt := twistVector m
        idx := 1
        seeded := true
        responses := s.responses ++ [0#32, temper (readWord (twistVector m) 0)] })

/-- R13, R58: a NEXT twists exactly when the engine is exhausted: a ready engine keeps its vector and its cursor advances
by 1; an exhausted one takes the first word of the next generation, and its cursor is 1. -/
def Obligations.TwistRunsExactlyWhenExhausted : Prop :=
  (∀ s, exhausted s = true ↔ s.seeded = false ∨ s.idx = 624) ∧
  (∀ s, ready s = true → ∃ t, exec .next s = .next t ∧ t.mt = s.mt ∧ t.idx.val = s.idx.val + 1) ∧
  (∀ s, exhausted s = true → ∃ t m, exec .next s = .next t ∧ t.mt = twistVector m ∧ t.idx = 1 ∧
    (s.seeded = true → m = s.mt) ∧ (s.seeded = false → ScalarSeeded 5489#32 m))

/-- R65: a NEXT on a never-seeded engine does what SEEDS 5489 followed by NEXT does, but for the response of the SEEDS;
no step ever clears the flag again; SEEDS and SEEDK set it; and a NEXT on a seeded engine does no default seeding: it keeps
the vector, or twists the vector it finds when the cursor stands at 624. So the default seeding happens at most once after a
reset, and never after a SEEDS or SEEDK. -/
def Obligations.DefaultSeedingHappensOnce : Prop :=
  (∀ s, s.seeded = false → ∃ t u, exec (.seeds 5489#32) s = .next t ∧
    exec .next { t with responses := s.responses } = .next u ∧ exec .next s = .next u ∧ u.seeded = true) ∧
  (∀ kmax s t, s.seeded = true → stepWith kmax s = .next t → t.seeded = true) ∧
  (∀ kmax i s, i ≠ .next → wellFormed kmax i = true → ∃ t, exec i s = .next t ∧ t.seeded = true) ∧
  (∀ s, s.seeded = true → ∃ t, exec .next s = .next t ∧ t.seeded = true ∧
    (s.idx ≠ 624 → t.mt = s.mt) ∧ (s.idx = 624 → t.mt = twistVector s.mt))

/-- R12: of everything that can happen to an instance, only reset clears the flag, and only a completed command sets it. -/
def Obligations.OnlyResetClearsSeeded : Prop :=
  ∀ kmax e s,
    (s.seeded = true → (applyEvent kmax e s).seeded = false → ∃ m, e = .reset m) ∧
    (s.seeded = false → (applyEvent kmax e s).seeded = true →
      e = .tick ∧ ∃ w rest h ops i, s.commands = w :: rest ∧ completeFrame? (s.frame ++ [w]) = some (h, ops) ∧
        decodeFrame kmax h ops = .instr i)

/-- R67: after a seeding that leaves the vector S, draw number n + 1 (refused frames may stand between the draws) hands
out the tempered word n mod 624 of generation 1 + n / 624, a generation being one twist of the one before; and every
seeding leaves an engine that starts so. -/
def Obligations.OutputStreamByGenerations : Prop :=
  (∀ s (cs : List Command), s.seeded = true → s.idx = 624 →
    (∀ c ∈ cs, c = .instr .next ∨ ∃ cause h, c = .bad cause h) →
    ∃ t u, runCommands cs s = .next t ∧ exec .next t = .next u ∧
      u.mt = twistVector^[1 + cs.count (.instr .next) / 624] s.mt ∧
      u.idx.val = cs.count (.instr .next) % 624 + 1 ∧
      u.responses = t.responses ++
        [0#32, temper (readWord (twistVector^[1 + cs.count (.instr .next) / 624] s.mt)
          ⟨cs.count (.instr .next) % 624, Nat.mod_lt _ (by decide)⟩)]) ∧
  (∀ kmax i s t, i ≠ .next → wellFormed kmax i = true → exec i s = .next t → t.seeded = true ∧ t.idx = 624)

/-- R69: two engines, whatever their past, that receive the same seeding and then the same commands give the same
responses. -/
def Obligations.SameSeedSameStream : Prop :=
  ∀ kmax (seeding : Instr) (cs : List Command) s s', seeding ≠ .next → wellFormed kmax seeding = true →
    ∃ t t' new, runCommands (.instr seeding :: cs) s = .next t ∧ runCommands (.instr seeding :: cs) s' = .next t' ∧
      t.responses = s.responses ++ new ∧ t'.responses = s'.responses ++ new ∧
      t.mt = t'.mt ∧ t.idx = t'.idx ∧ t.seeded = t'.seeded

/-! ### Whole-machine rules -/

/-- R10, R15, R102: whatever the command, FRAME and the command stream are not touched by executing it, and exactly one
response is appended. -/
def Obligations.CommandsTouchOnlyEngineAndResponses : Prop :=
  ∀ i s, ∃ t status data, exec i s = .next t ∧ t.frame = s.frame ∧ t.commands = s.commands ∧
    t.responses = s.responses ++ [status, data]

/-- R11: after a NEXT the cursor stands in 1..624; after a seeding it stands at 624. -/
def Obligations.CursorAfterEachCommand : Prop :=
  (∀ s t, exec .next s = .next t → 1 ≤ t.idx.val ∧ t.idx.val ≤ 624) ∧
  (∀ seed s t, exec (.seeds seed) s = .next t → t.idx = 624) ∧
  (∀ (key : List Word) s t, 0 < key.length → exec (.seedk key) s = .next t → t.idx = 624)

/-- R17, R19 (I-a, I-b): every step keeps a sound state sound: FRAME holds less than a whole frame, and a never-seeded
engine has its cursor at 624. -/
def Obligations.StepKeepsSound : Prop :=
  ∀ kmax s t, Sound s → stepWith kmax s = .next t → Sound t

/-- R19: every event, the host's moves and reset with any unspecified words among them, keeps a sound state sound. -/
def Obligations.EventsKeepSound : Prop :=
  ∀ kmax e s, Sound s → Sound (applyEvent kmax e s)

/-- R70: every step keeps a seeded engine away from the all-zero vector (the words that reach an output, R54). -/
def Obligations.StepKeepsLive : Prop :=
  ∀ kmax s t, Live s → stepWith kmax s = .next t → Live t

/-- R19, R96, R97: after reset the engine is never seeded, its cursor stands at 624, FRAME is empty and no response is
pending, and both invariants hold. Nothing is said of the words of MT, which the spec leaves unspecified. -/
def Obligations.ResetState : Prop :=
  State.reset.seeded = false ∧ State.reset.idx = 624 ∧ State.reset.frame = [] ∧ State.reset.responses = [] ∧
  exhausted State.reset = true ∧ Sound State.reset ∧ Live State.reset

/-- R96, R98: the reset event, with any unspecified words, leaves the never-seeded engine of R97 with FRAME empty and no
response pending, whatever was in progress. That untaken command words stay is the model's choice (log entry 5). -/
def Obligations.ResetEvent : Prop :=
  ∀ kmax m s, applyEvent kmax (.reset m) s =
    { mt := m, idx := 624, seeded := false, frame := [], commands := s.commands, responses := [] }

/-- R19: the words MT holds while the engine is never seeded influence nothing: two runs that differ only in them give
the same responses and the same states, and the very same words from the first seeding on. -/
def Obligations.UnseededWordsAreUnobservable : Prop :=
  ∀ kmax n s (other : StateVector), s.seeded = false → s.idx = 624 →
    ∃ t m, runWith kmax n s = .next t ∧ runWith kmax n { s with mt := other } = .next { t with mt := m } ∧
      (t.seeded = true → m = t.mt)

/-- R18, R93: any number of instances; whatever happens to them, the state of each is what its own events alone make of
it. -/
def Obligations.InstancesAreIndependent : Prop :=
  ∀ kmax (sys : System) (events : List (Nat × Event)) (j : Nat),
    (events.foldl (fun y e => System.applyAt kmax e.1 e.2 y) sys)[j]? =
      (sys[j]?).map fun s => ((events.filter fun e => e.1 == j).map Prod.snd).foldl (fun x e => applyEvent kmax e x) s

/-! ### The host's side -/

/-- R38, R105: the host that sends one command to an idle block and takes two words gets STATUS and DATA, and the
block is left as if the response had never stood there. One step a word is log entry 3 (DEDUCED). -/
def Obligations.HostGetsTheResponse : Prop :=
  ∀ kmax i s, wellFormed kmax i = true → Config.LegalKmax kmax → s.frame = [] → s.commands = [] → s.responses = [] →
    ∃ t u status data, runWith kmax (encode i).length (hostSend (encode i) s) = .next t ∧
      exec i s = .next t ∧ hostTake t = some (status, u) ∧
      hostTake u = some (data, { t with responses := [] }) ∧ status = 0#32 ∧
      call i s = ({ t with responses := [] }, data)

/-- R76: the bounded draw: refused without a draw when min is not below max; otherwise exactly one NEXT, and its output
reduced modulo the span and shifted lies in the range. -/
def Obligations.BoundedDraw : Prop :=
  (∀ min max s, max.toNat ≤ min.toNat → nextInRange min max s = (.error .invalidRange, s)) ∧
  (∀ (min max : Word) s, min.toNat < max.toNat →
    ∃ t r v, exec .next s = .next t ∧ t.responses = s.responses ++ [0#32, r] ∧
      nextInRange min max s = (.ok v, { t with responses := s.responses }) ∧
      v.toNat = r.toNat % (max.toNat - min.toNat + 1) + min.toNat ∧ min.toNat ≤ v.toNat ∧ v.toNat ≤ max.toNat)

/-- R78, with the default `signedBounds` (log entry 14): bounds 0 ≤ smin < smax never overflow; smin < 0 ≤ smax is an
invalid range and draws nothing; smin < smax < 0 overflows after one draw. -/
def Obligations.SignedBoundedDraw : Prop :=
  ∀ (smin smax : Int) (s : State), -2 ^ 31 ≤ smin → smin < 2 ^ 31 → -2 ^ 31 ≤ smax → smax < 2 ^ 31 →
    (0 ≤ smin → smin < smax → ∃ v, nextInRangeSigned Config.signedBounds smin smax s = (.ok v, (call .next s).1) ∧
      smin ≤ v ∧ v ≤ smax) ∧
    (smin < 0 → 0 ≤ smax → nextInRangeSigned Config.signedBounds smin smax s = (.error .invalidRange, s)) ∧
    (smin < smax → smax < 0 →
      nextInRangeSigned Config.signedBounds smin smax s = (.error .overflow, (call .next s).1))

/-- R72, R73, R75: the default construction and the reseeding: an entropy failure sends no command and is reported;
otherwise one SEEDK whose key words are the entropy values, one per word, zero-extended. For sequences of 1 to KMAX values. -/
def Obligations.AutoSeedIsOneSeedk : Prop :=
  (∀ kmax s, construct kmax none s = (.error .entropyUnavailable, s) ∧
    reseed kmax none s = (.error .entropyUnavailable, s)) ∧
  (∀ kmax (values : List (BitVec 8)) s, 1 ≤ values.length → values.length ≤ kmax →
    ∃ (key : List Word) (t : State), key.map BitVec.toNat = values.map BitVec.toNat ∧ exec (.seedk key) s = .next t ∧
      construct kmax (some values) s = (.ok (), { t with responses := s.responses }) ∧
      reseed kmax (some values) s = (.ok (), { t with responses := s.responses }))

/-- R43, R44: the words each assembly line stands for, for a block with any legal KMAX. That the assembler gives no words
for a SEEDK whose key has no encoding (R42) is the model's choice (log entries 2 and 18). -/
def Obligations.AssemblyLines : Prop :=
  ∀ kmax, Config.LegalKmax kmax →
    (∀ seed, (AsmLine.seeds seed).words kmax = some [0x01000001#32, seed]) ∧
    (∀ key : List Word, 1 ≤ key.length → key.length ≤ kmax →
      (AsmLine.seedk key).words kmax = some ((0x02000000#32 ||| BitVec.ofNat 32 key.length) :: key)) ∧
    (∀ key : List Word, key.length = 0 ∨ kmax < key.length → (AsmLine.seedk key).words kmax = none) ∧
    AsmLine.next.words kmax = some [0x03000000#32] ∧
    (∀ n, (AsmLine.nextTimes n).words kmax = some (List.replicate n 0x03000000#32)) ∧
    AsmLine.seedd.words kmax = some [0x01000001#32, 0x00001571#32] ∧
    (∀ ws, (AsmLine.word ws).words kmax = some ws)
end

