-- ==== Sys2Proof/Laws/Decode.lean ====
section
/-! SUPPORT. The fields of a header the encoder builds, and the cutting of frames. -/

namespace Sys2Proof

theorem header_toNat (opc : BitVec 8) (n : Nat) :
    (header opc n).toNat = opc.toNat * 2 ^ 24 + n % 2 ^ 16 := by
  have h1 : (BitVec.ofNat 16 n).toNat < 2 ^ 16 := (BitVec.ofNat 16 n).isLt
  have h2 : (opc ++ 0x00#8 : BitVec 16).toNat = opc.toNat * 2 ^ 8 := by
    rw [BitVec.toNat_append, Nat.shiftLeft_eq]
    simp
  unfold header
  rw [BitVec.toNat_append, ← Nat.shiftLeft_add_eq_or_of_lt h1, Nat.shiftLeft_eq, h2, BitVec.toNat_ofNat]
  omega

/-- The fields of a header as numbers (R31). -/
theorem headerOpc_toNat (h : Word) : (headerOpc h).toNat = h.toNat / 2 ^ 24 := by
  have := h.isLt
  simp [headerOpc, Nat.shiftRight_eq_div_pow]
  omega

theorem headerRsv_toNat (h : Word) : (headerRsv h).toNat = h.toNat / 2 ^ 16 % 2 ^ 8 := by
  simp [headerRsv, Nat.shiftRight_eq_div_pow]

theorem headerLen_eq (h : Word) : headerLen h = h.toNat % 2 ^ 16 := by
  simp [headerLen]

@[simp] theorem headerOpc_header (opc : BitVec 8) (n : Nat) : headerOpc (header opc n) = opc := by
  apply BitVec.eq_of_toNat_eq
  rw [headerOpc_toNat, header_toNat]
  omega

@[simp] theorem headerRsv_header (opc : BitVec 8) (n : Nat) : headerRsv (header opc n) = 0#8 := by
  apply BitVec.eq_of_toNat_eq
  rw [headerRsv_toNat, header_toNat]
  simp
  omega

theorem headerLen_header (opc : BitVec 8) {n : Nat} (h : n ≤ 65535) : headerLen (header opc n) = n := by
  rw [headerLen_eq, header_toNat]
  omega

/-- A header announces at most 65535 operand words (R31). -/
theorem headerLen_le (h : Word) : headerLen h ≤ 65535 := by
  have := (h.extractLsb' 0 16).isLt
  unfold headerLen
  omega

theorem completeFrame?_eq_none_iff (words : List Word) :
    completeFrame? words = none ↔ words = [] ∨ ∃ h ops, words = h :: ops ∧ ops.length < headerLen h := by
  cases words with
  | nil => simp [completeFrame?]
  | cons h ops => simp [completeFrame?]

theorem completeFrame?_eq_some_iff (words : List Word) (h : Word) (ops : List Word) :
    completeFrame? words = some (h, ops) ↔ words = h :: ops ∧ headerLen h ≤ ops.length := by
  cases words with
  | nil => simp [completeFrame?]
  | cons h' ops' =>
    simp only [completeFrame?]
    split
    · next hlt =>
      constructor
      · intro e; simp at e
      · rintro ⟨e, hle⟩
        cases e
        omega
    · next hge =>
      constructor
      · intro e
        cases e
        exact ⟨rfl, by omega⟩
      · rintro ⟨e, -⟩
        cases e
        rfl

@[simp] theorem length_operandWords (n bits : Nat) : (operandWords n bits).length = n := by
  induction n generalizing bits with
  | zero => rfl
  | succ n ih => simp [operandWords, ih]

end Sys2Proof
end

