-- ==== Sys2Proof/Laws/State.lean ====
section
/-! SUPPORT. One lemma per field and update of State: what each named update leaves in each field. -/

namespace Sys2Proof.Machine

@[simp] theorem respond_mt (status : Status) (data : Word) (s : State) : (respond status data s).mt = s.mt := rfl
@[simp] theorem respond_idx (status : Status) (data : Word) (s : State) : (respond status data s).idx = s.idx := rfl
@[simp] theorem respond_seeded (status : Status) (data : Word) (s : State) : (respond status data s).seeded = s.seeded := rfl
@[simp] theorem respond_frame (status : Status) (data : Word) (s : State) : (respond status data s).frame = s.frame := rfl
@[simp] theorem respond_commands (status : Status) (data : Word) (s : State) : (respond status data s).commands = s.commands := rfl
@[simp] theorem respond_responses (status : Status) (data : Word) (s : State) : (respond status data s).responses = s.responses ++ [statusWord status, data] := rfl

@[simp] theorem initScalar_mt (seed : Word) (s : State) : (initScalar seed s).mt = scalarVector seed s.mt := by simp only [initScalar]
@[simp] theorem initScalar_idx (seed : Word) (s : State) : (initScalar seed s).idx = 624 := by simp only [initScalar]
@[simp] theorem initScalar_seeded (seed : Word) (s : State) : (initScalar seed s).seeded = true := by simp only [initScalar]
@[simp] theorem initScalar_frame (seed : Word) (s : State) : (initScalar seed s).frame = s.frame := by simp only [initScalar]
@[simp] theorem initScalar_commands (seed : Word) (s : State) : (initScalar seed s).commands = s.commands := by simp only [initScalar]
@[simp] theorem initScalar_responses (seed : Word) (s : State) : (initScalar seed s).responses = s.responses := by simp only [initScalar]

@[simp] theorem twist_mt (s : State) : (twist s).mt = twistVector s.mt := by simp only [twist]
@[simp] theorem twist_idx (s : State) : (twist s).idx = 0 := by simp only [twist]
@[simp] theorem twist_seeded (s : State) : (twist s).seeded = s.seeded := by simp only [twist]
@[simp] theorem twist_frame (s : State) : (twist s).frame = s.frame := by simp only [twist]
@[simp] theorem twist_commands (s : State) : (twist s).commands = s.commands := by simp only [twist]
@[simp] theorem twist_responses (s : State) : (twist s).responses = s.responses := by simp only [twist]

@[simp] theorem takeWord_mt (k : Fin 624) (s : State) : (takeWord k s).2.mt = s.mt := rfl
@[simp] theorem takeWord_idx (k : Fin 624) (s : State) : (takeWord k s).2.idx = k.succ := rfl
@[simp] theorem takeWord_seeded (k : Fin 624) (s : State) : (takeWord k s).2.seeded = s.seeded := rfl
@[simp] theorem takeWord_frame (k : Fin 624) (s : State) : (takeWord k s).2.frame = s.frame := rfl
@[simp] theorem takeWord_commands (k : Fin 624) (s : State) : (takeWord k s).2.commands = s.commands := rfl
@[simp] theorem takeWord_responses (k : Fin 624) (s : State) : (takeWord k s).2.responses = s.responses := rfl

@[simp] theorem hostSend_mt (ws : List Word) (s : State) : (hostSend ws s).mt = s.mt := rfl
@[simp] theorem hostSend_idx (ws : List Word) (s : State) : (hostSend ws s).idx = s.idx := rfl
@[simp] theorem hostSend_seeded (ws : List Word) (s : State) : (hostSend ws s).seeded = s.seeded := rfl
@[simp] theorem hostSend_frame (ws : List Word) (s : State) : (hostSend ws s).frame = s.frame := rfl
@[simp] theorem hostSend_commands (ws : List Word) (s : State) : (hostSend ws s).commands = s.commands ++ ws := rfl
@[simp] theorem hostSend_responses (ws : List Word) (s : State) : (hostSend ws s).responses = s.responses := rfl

@[simp] theorem resetEvent_mt (m : StateVector) (s : State) : (resetEvent m s).mt = m := rfl
@[simp] theorem resetEvent_idx (m : StateVector) (s : State) : (resetEvent m s).idx = 624 := rfl
@[simp] theorem resetEvent_seeded (m : StateVector) (s : State) : (resetEvent m s).seeded = false := rfl
@[simp] theorem resetEvent_frame (m : StateVector) (s : State) : (resetEvent m s).frame = [] := rfl
@[simp] theorem resetEvent_commands (m : StateVector) (s : State) : (resetEvent m s).commands = s.commands := rfl
@[simp] theorem resetEvent_responses (m : StateVector) (s : State) : (resetEvent m s).responses = [] := rfl

@[simp] theorem placeFrame_mt (ws : List Word) (s : State) : (placeFrame ws s).mt = s.mt := rfl
@[simp] theorem placeFrame_idx (ws : List Word) (s : State) : (placeFrame ws s).idx = s.idx := rfl
@[simp] theorem placeFrame_seeded (ws : List Word) (s : State) : (placeFrame ws s).seeded = s.seeded := rfl
@[simp] theorem placeFrame_frame (ws : List Word) (s : State) : (placeFrame ws s).frame = ws.dropLast := rfl
@[simp] theorem placeFrame_commands (ws : List Word) (s : State) : (placeFrame ws s).commands = ws.drop (ws.length - 1) ++ s.commands := rfl
@[simp] theorem placeFrame_responses (ws : List Word) (s : State) : (placeFrame ws s).responses = s.responses := rfl

@[simp] theorem takeWord_output (k : Fin 624) (s : State) : (takeWord k s).1 = temper (readWord s.mt k) := rfl

@[simp] theorem reset_idx : State.reset.idx = 624 := rfl
@[simp] theorem reset_seeded : State.reset.seeded = false := rfl
@[simp] theorem reset_frame : State.reset.frame = [] := rfl
@[simp] theorem reset_commands : State.reset.commands = [] := rfl
@[simp] theorem reset_responses : State.reset.responses = [] := rfl

end Sys2Proof.Machine
end

