-- ==== Sys2Proof/Laws/Ops.lean ====
section
/-! SUPPORT. The shared operations: words of the state vector, the ascending loop, responses and errors. -/

namespace Sys2Proof.Machine

/-! ### Words of the state vector -/

@[simp] theorem readWord_writeWord_self (mt : StateVector) (i : Fin 624) (v : Word) :
    readWord (writeWord mt i v) i = v := by
  simp [readWord, writeWord]

theorem readWord_writeWord_of_ne (mt : StateVector) {i j : Fin 624} (v : Word) (h : j ≠ i) :
    readWord (writeWord mt i v) j = readWord mt j := by
  have h' : i.val ≠ j.val := fun e => h (Fin.ext e.symm)
  simp [readWord, writeWord, h']

theorem readWord_writeWord (mt : StateVector) (i j : Fin 624) (v : Word) :
    readWord (writeWord mt i v) j = if j = i then v else readWord mt j := by
  by_cases h : j = i
  · subst h; simp
  · simp [h, readWord_writeWord_of_ne mt v h]

/-- Two vectors with the same words are equal. -/
theorem stateVector_ext {a b : StateVector} (h : ∀ k, readWord a k = readWord b k) : a = b := by
  apply Vector.ext
  intro i hi
  exact h ⟨i, hi⟩

@[simp] theorem indexPlus_val (k : Fin 624) (c : Nat) : (indexPlus k c).val = (k.val + c) % 624 := rfl

@[simp] theorem indexBefore_val (i : Fin 624) : (indexBefore i).val = i.val - 1 := rfl

/-! ### The ascending loop -/

@[simp] theorem forUp_zero {α : Type} (body : Fin 0 → α → α) (start : α) : forUp 0 body start = start := rfl

theorem forUp_succ {α : Type} (n : Nat) (body : Fin (n + 1) → α → α) (start : α) :
    forUp (n + 1) body start = body (Fin.last n) (forUp n (fun k => body k.castSucc) start) := rfl

/-- A property that holds before the loop and that every iteration carries on holds after it. -/
theorem forUp_induction {α : Type} (P : Nat → α → Prop) {n : Nat} {body : Fin n → α → α} {start : α}
    (base : P 0 start) (next : ∀ (k : Fin n) (x : α), P k.val x → P (k.val + 1) (body k x)) :
    P n (forUp n body start) := by
  induction n with
  | zero => exact base
  | succ n ih =>
    rw [forUp_succ]
    exact next (Fin.last n) _ (ih fun k x hx => next k.castSucc x hx)

/-! ### The cursor -/

theorem cursor?_of_lt {s : State} (h : s.idx.val < 624) : cursor? s = some ⟨s.idx.val, h⟩ := by
  simp [cursor?, h]

theorem cursor?_of_ge {s : State} (h : 624 ≤ s.idx.val) : cursor? s = none := by
  simp [cursor?, Nat.not_lt.mpr h]

/-! ### Responses and errors -/

theorem raise_eq (cause : Cause) (h : Word) (s : State) :
    raise cause h s = .next { s with responses := s.responses ++ [statusWord (.refused cause), h] } := rfl

@[simp] theorem statusWord_ok : statusWord .ok = 0#32 := by decide
@[simp] theorem statusWord_illegalOpcode : statusWord (.refused .illegalOpcode) = 1#32 := by decide
@[simp] theorem statusWord_reservedNonzero : statusWord (.refused .reservedNonzero) = 2#32 := by decide
@[simp] theorem statusWord_badLength : statusWord (.refused .badLength) = 3#32 := by decide

end Sys2Proof.Machine
end

