-- ==== Sys2Proof/Laws/Seeders.lean ====
section
/-! SUPPORT. The two seeders: the words of the scalar seeder, what one step of each key pass does, and what the
seeding commands answer. -/

namespace Sys2Proof.Machine

/-- Word `i` of a scalar seeding by its recurrence (R45). -/
def scalarWord (seed : Word) : Nat → Word
  | 0 => seed
  | i + 1 => scalarNext (scalarWord seed i) (i + 1)

/-- The scalar seeder leaves the recurrence's words, whatever the vector held before. -/
theorem readWord_scalarVector (seed : Word) (mt : StateVector) (k : Fin 624) :
    readWord (scalarVector seed mt) k = scalarWord seed k.val := by
  have key : ∀ j : Fin 624, j.val ≤ 623 → readWord (scalarVector seed mt) j = scalarWord seed j.val := by
    unfold scalarVector
    refine forUp_induction
      (fun n (x : StateVector) => ∀ j : Fin 624, j.val ≤ n → readWord x j = scalarWord seed j.val) ?_ ?_
    · intro j hj
      obtain rfl : j = 0 := Fin.ext (by simpa using hj)
      simp [scalarWord]
    · intro t x hx j hj
      by_cases e : j = t.succ
      · subst e
        have hp := hx t.castSucc (by simp)
        simp only [Fin.val_castSucc] at hp
        simp [scalarWord, hp]
      · rw [readWord_writeWord_of_ne _ _ e]
        refine hx j ?_
        have : j.val ≠ t.val + 1 := fun h => e (Fin.ext (by simpa using h))
        omega
  exact key k (by omega)

/-- The position after a step of a key pass, for a position in 1..623 (R52, R53). -/
theorem advanceState_i (p : PassState) :
    (advanceState p).i.val = if p.i.val + 1 < 624 then p.i.val + 1 else 1 := by
  unfold advanceState
  split <;> simp_all

/-- The words after the position has advanced: word 0 is copied from word 623 exactly at the wrap. -/
theorem advanceState_word (p : PassState) (k : Fin 624) :
    readWord (advanceState p).mt k =
      if 624 ≤ p.i.val + 1 ∧ k = 0 then readWord p.mt 623 else readWord p.mt k := by
  unfold advanceState
  split
  · next h => simp [Nat.not_le.mpr h]
  · next h => simp [Nat.not_lt.mp h, readWord_writeWord]

theorem advanceKey_val {n : Nat} (j : Fin n) :
    (advanceKey j).val = if j.val + 1 < n then j.val + 1 else 0 := by
  unfold advanceKey
  split <;> rfl

/-- SEEDS always completes with this state (R46). -/
theorem execSeeds_eq (seed : Word) (s : State) :
    execSeeds seed s = .next
      { s with mt := scalarVector seed s.mt, idx := 624, seeded := true, responses := s.responses ++ [0#32, 0#32] } := by
  simp [execSeeds, respond, initScalar]

/-- SEEDK with a key completes with this state (R55). -/
theorem execSeedk_eq {key : List Word} (nonempty : 0 < key.length) (s : State) :
    execSeedk key s = .next
      { s with mt := keyVector key nonempty s.mt, idx := 624, seeded := true,
               responses := s.responses ++ [0#32, 0#32] } := by
  simp [execSeedk, nonempty, respond]

end Sys2Proof.Machine
end

