-- ==== Sys2Proof/Laws/Draw.lean ====
section
/-! SUPPORT. The twist, iteration by iteration, and the three cases of a draw. -/

namespace Sys2Proof.Machine

/-- The vector after the iterations `k = 0 .. n-1` of the twist (R59). -/
def twistUpTo (mt : StateVector) : Nat → StateVector
  | 0 => mt
  | n + 1 => if h : n < 624 then twistStep ⟨n, h⟩ (twistUpTo mt n) else twistUpTo mt n

theorem twistUpTo_succ (mt : StateVector) (k : Fin 624) :
    twistUpTo mt (k.val + 1) = twistStep k (twistUpTo mt k.val) := by
  simp [twistUpTo]

/-- The twist is its 624 iterations. -/
theorem twistVector_eq (mt : StateVector) : twistVector mt = twistUpTo mt 624 := by
  unfold twistVector
  refine forUp_induction (fun n x => x = twistUpTo mt n) rfl ?_
  rintro k x rfl
  exact (twistUpTo_succ mt k).symm

/-- An iteration writes its own word only. -/
theorem readWord_twistStep (k j : Fin 624) (mt : StateVector) :
    readWord (twistStep k mt) j =
      if j = k then twistWord (readWord mt k) (readWord mt (indexPlus k 1)) (readWord mt (indexPlus k twistOffset))
      else readWord mt j := by
  simp [twistStep, readWord_writeWord]

/-- A word at or after position `n` is still old after `n` iterations. -/
theorem readWord_twistUpTo_old (mt : StateVector) (n : Nat) (j : Fin 624) (h : n ≤ j.val) :
    readWord (twistUpTo mt n) j = readWord mt j := by
  induction n with
  | zero => rfl
  | succ n ih =>
    have hn : n < 624 := by omega
    have hne : j ≠ ⟨n, hn⟩ := by
      intro e
      simp [e] at h
    rw [twistUpTo, dif_pos hn, readWord_twistStep, if_neg hne]
    exact ih (by omega)

/-- A word before position `n` already has, after `n` iterations, the value the whole twist gives it. -/
theorem readWord_twistUpTo_new (mt : StateVector) (n : Nat) (hn : n ≤ 624) (j : Fin 624) (h : j.val < n) :
    readWord (twistUpTo mt n) j = readWord (twistVector mt) j := by
  have stays : ∀ d, n + d ≤ 624 → readWord (twistUpTo mt (n + d)) j = readWord (twistUpTo mt n) j := by
    intro d
    induction d with
    | zero => intro _; rfl
    | succ d ih =>
      intro hd
      have hlt : n + d < 624 := by omega
      have hne : j ≠ ⟨n + d, hlt⟩ := by
        intro e
        simp [e] at h
      rw [← Nat.add_assoc, twistUpTo, dif_pos hlt, readWord_twistStep, if_neg hne]
      exact ih (by omega)
  rw [twistVector_eq, ← stays (624 - n) (by omega), Nat.add_sub_cancel' hn]

/-- What iteration `k` of the twist writes, in terms of the vector it finds (R59). -/
theorem readWord_twistVector (mt : StateVector) (k : Fin 624) :
    readWord (twistVector mt) k =
      twistWord (readWord (twistUpTo mt k.val) k) (readWord (twistUpTo mt k.val) (indexPlus k 1))
        (readWord (twistUpTo mt k.val) (indexPlus k twistOffset)) := by
  rw [← readWord_twistUpTo_new mt (k.val + 1) (by omega) k (by omega), twistUpTo_succ, readWord_twistStep,
    if_pos rfl]

/-- A draw from a ready engine: no word changes, the cursor advances (R66). -/
theorem draw_ready {s : State} (hs : s.seeded = true) (k : Fin 624) (hk : s.idx.val = k.val) :
    draw s = (temper (readWord s.mt k), { s with idx := k.succ }) := by
  have hlt : s.idx.val < 624 := by omega
  have he : (⟨s.idx.val, hlt⟩ : Fin 624) = k := Fin.ext hk
  simp [draw, seedIfNever, hs, cursor?_of_lt hlt, he, takeWord]

/-- A draw from a seeded engine whose cursor stands at 624: twist, then word 0 (R66). -/
theorem draw_exhausted {s : State} (hs : s.seeded = true) (h : 624 ≤ s.idx.val) :
    draw s = (temper (readWord (twistVector s.mt) 0), { s with mt := twistVector s.mt, idx := 1 }) := by
  simp [draw, seedIfNever, hs, cursor?_of_ge h, takeWord, twist]

/-- A draw from a never-seeded engine is a draw after the default seeding (R65). -/
theorem draw_never {s : State} (hs : s.seeded = false) : draw s = draw (initScalar defaultSeed s) := by
  simp [draw, seedIfNever, hs]

/-- Everything a draw can do (R66): one of the three cases. -/
theorem draw_cases (s : State) :
    (∃ k : Fin 624, s.seeded = true ∧ s.idx.val = k.val ∧
        draw s = (temper (readWord s.mt k), { s with idx := k.succ })) ∨
    (s.seeded = true ∧ s.idx = 624 ∧
        draw s = (temper (readWord (twistVector s.mt) 0), { s with mt := twistVector s.mt, idx := 1 })) ∨
    (s.seeded = false ∧
        draw s = (temper (readWord (twistVector (scalarVector defaultSeed s.mt)) 0),
          { s with mt := twistVector (scalarVector defaultSeed s.mt), idx := 1, seeded := true })) := by
  cases hs : s.seeded with
  | false =>
    refine .inr (.inr ⟨rfl, ?_⟩)
    rw [draw_never hs, draw_exhausted (initScalar_seeded _ _) (by simp)]
    rfl
  | true =>
    by_cases h : s.idx.val < 624
    · exact .inl ⟨⟨s.idx.val, h⟩, rfl, rfl, hs ▸ draw_ready hs _ rfl⟩
    · have h' : 624 ≤ s.idx.val := by omega
      refine .inr (.inl ⟨rfl, Fin.ext ?_, hs ▸ draw_exhausted hs h'⟩)
      have := s.idx.isLt
      show s.idx.val = 624
      omega

/-- A draw reads and writes the engine only: FRAME and the two streams pass through it untouched (R66, R17). -/
theorem draw_streams (s : State) (f c r : List Word) :
    draw { s with frame := f, commands := c, responses := r } =
      ((draw s).1, { (draw s).2 with frame := f, commands := c, responses := r }) := by
  obtain ⟨mt, idx, seeded, f₀, c₀, r₀⟩ := s
  obtain ⟨k, hs, hk, e⟩ | ⟨hs, hi, e⟩ | ⟨hs, e⟩ := draw_cases ⟨mt, idx, seeded, f₀, c₀, r₀⟩
  · rw [e, draw_ready (s := ⟨mt, idx, seeded, f, c, r⟩) hs k hk]
  · rw [e, draw_exhausted (s := ⟨mt, idx, seeded, f, c, r⟩) hs (by simp only at hi ⊢; rw [hi]; decide)]
  · rw [e, draw_never (s := ⟨mt, idx, seeded, f, c, r⟩) hs, draw_exhausted (initScalar_seeded _ _) (by simp)]
    simp

/-- NEXT always completes: one draw and its response (R66). -/
theorem execNext_eq (s : State) :
    execNext s = .next { (draw s).2 with responses := (draw s).2.responses ++ [0#32, (draw s).1] } := by
  simp [execNext, respond]

end Sys2Proof.Machine
end

