-- ==== Sys2Proof/Laws/KeyWords.lean ====
section
/-! SUPPORT. One step of each key pass, said once, and the words of a key seeding by plain recurrences for keys of at most
624 words (so that the spec's key-seeding values can be checked by evaluation). -/

namespace Sys2Proof.Machine

/-! ### One step of a pass -/

/-- What a first-pass step writes: word `i`, and word 0 at the wrap; everything else stays (R52). -/
theorem firstPassStep_word (key : List Word) (p : PassState × Fin key.length) (h0 : p.1.i ≠ 0) (k : Fin 624) :
    readWord (firstPassStep key p).1.mt k =
      if k = p.1.i ∨ (k = 0 ∧ 624 ≤ p.1.i.val + 1) then
        firstPassWord (readWord p.1.mt p.1.i) (readWord p.1.mt (indexBefore p.1.i)) (keyWord key p.2) p.2.val
      else readWord p.1.mt k := by
  simp only [firstPassStep, advanceState_word, readWord_writeWord]
  by_cases hw : 624 ≤ p.1.i.val + 1
  · have hi : p.1.i = 623 := Fin.ext (by show p.1.i.val = 623; omega)
    by_cases hk : k = 0
    · simp [hk, hi]
    · simp [hk, hi]
  · have : ¬ (0 : Fin 624) = p.1.i := fun e => h0 e.symm
    simp [hw]

theorem firstPassStep_i (key : List Word) (p : PassState × Fin key.length) :
    (firstPassStep key p).1.i.val = if p.1.i.val + 1 < 624 then p.1.i.val + 1 else 1 := by
  simp [firstPassStep, advanceState_i]

theorem firstPassStep_j (key : List Word) (p : PassState × Fin key.length) :
    (firstPassStep key p).2.val = if p.2.val + 1 < key.length then p.2.val + 1 else 0 := by
  simp [firstPassStep, advanceKey_val]

/-- What a second-pass step writes: word `i`, and word 0 at the wrap; everything else stays (R53). -/
theorem secondPassStep_word (p : PassState) (h0 : p.i ≠ 0) (k : Fin 624) :
    readWord (secondPassStep p).mt k =
      if k = p.i ∨ (k = 0 ∧ 624 ≤ p.i.val + 1) then
        secondPassWord (readWord p.mt p.i) (readWord p.mt (indexBefore p.i)) p.i.val
      else readWord p.mt k := by
  simp only [secondPassStep, advanceState_word, readWord_writeWord]
  by_cases hw : 624 ≤ p.i.val + 1
  · have hi : p.i = 623 := Fin.ext (by show p.i.val = 623; omega)
    by_cases hk : k = 0
    · simp [hk, hi]
    · simp [hk, hi]
  · have : ¬ (0 : Fin 624) = p.i := fun e => h0 e.symm
    simp [hw]

theorem secondPassStep_i (p : PassState) :
    (secondPassStep p).i.val = if p.i.val + 1 < 624 then p.i.val + 1 else 1 := by
  simp [secondPassStep, advanceState_i]

/-! ### The words of a key seeding, key of at most 624 words -/

/-- Word `i` after the first 623 steps of the first pass. -/
def firstPassed (key : List Word) : Nat → Word
  | 0 => keyStartSeed
  | i + 1 => firstPassWord (scalarWord keyStartSeed (i + 1)) (firstPassed key i) (key.getD (i % key.length) 0#32)
      (i % key.length)

/-- Word 1 after step 624 of the first pass, which targets it a second time (R56). -/
def firstPassedAgain (key : List Word) : Word :=
  firstPassWord (firstPassed key 1) (firstPassed key 623) (key.getD (623 % key.length) 0#32) (623 % key.length)

/-- Word `i + 1` after the second pass has targeted words 2, ..., `i + 1`. -/
def secondPassed (key : List Word) : Nat → Word
  | 0 => firstPassedAgain key
  | i + 1 => secondPassWord (firstPassed key (i + 2)) (secondPassed key i) (i + 2)

theorem keyWord_eq_getD {key : List Word} (j : Fin key.length) : keyWord key j = key.getD j.val 0#32 := by
  simp [keyWord]

/-- The vector, the position and the key index after `n ≤ 623` steps of the first pass. -/
theorem firstPass_upTo (key : List Word) (nonempty : 0 < key.length) (mt : StateVector) (n : Nat) (hn : n ≤ 623) :
    ∃ q : PassState × Fin key.length,
      (firstPassStep key)^[n] (⟨scalarVector keyStartSeed mt, 1⟩, ⟨0, nonempty⟩) = q ∧
      q.1.i.val = (if n < 623 then n + 1 else 1) ∧ q.2.val = n % key.length ∧
      ∀ k : Fin 624, readWord q.1.mt k =
        if k.val = 0 then (if n < 623 then keyStartSeed else firstPassed key 623)
        else if k.val ≤ n then firstPassed key k.val else scalarWord keyStartSeed k.val := by
  induction n with
  | zero =>
    refine ⟨_, rfl, rfl, by simp, fun k => ?_⟩
    by_cases hk : k.val = 0
    · simp [readWord_scalarVector, hk, scalarWord]
    · simp [readWord_scalarVector, hk]
  | succ n ih =>
    obtain ⟨q, hq, hi, hj, hw⟩ := ih (by omega)
    rw [if_pos (by omega)] at hi
    have h0 : q.1.i ≠ 0 := fun e => by simp [e] at hi
    refine ⟨firstPassStep key q, by rw [Function.iterate_succ_apply', hq], ?_, ?_, fun k => ?_⟩
    · rw [firstPassStep_i, hi]
      split <;> split <;> omega
    · rw [firstPassStep_j, hj]
      have hlt := Nat.mod_lt n nonempty
      have hdiv := Nat.div_add_mod n key.length
      split
      · next h => rw [Nat.add_mod, Nat.mod_eq_of_lt (a := 1) (by omega), Nat.mod_eq_of_lt h]
      · next h =>
        have e : n % key.length + 1 = key.length := by omega
        have hdvd : key.length ∣ n + 1 := ⟨n / key.length + 1, by rw [Nat.mul_add, Nat.mul_one]; omega⟩
        exact (Nat.mod_eq_zero_of_dvd hdvd).symm
    · have hv : firstPassWord (readWord q.1.mt q.1.i) (readWord q.1.mt (indexBefore q.1.i)) (keyWord key q.2) q.2.val
          = firstPassed key (n + 1) := by
        have hold : readWord q.1.mt q.1.i = scalarWord keyStartSeed (n + 1) := by
          rw [hw, hi]; simp
        have hprev : readWord q.1.mt (indexBefore q.1.i) = firstPassed key n := by
          rw [hw, indexBefore_val, hi]
          by_cases hz : n = 0
          · simp [hz, firstPassed]
          · simp [hz]
        rw [hold, hprev, keyWord_eq_getD, hj]
        rfl
      rw [firstPassStep_word key q h0, hv, hw k, hi]
      by_cases hk : k.val = 0
      · have hk0 : k = 0 := Fin.ext hk
        have hne : k ≠ q.1.i := fun e => by rw [← e, hk] at hi; omega
        by_cases h : n + 1 < 623
        · have hnw : ¬ 624 ≤ n + 1 + 1 := by omega
          have h' : n < 623 := by omega
          rw [if_neg (by simp [hne, hnw]), if_pos hk, if_pos hk, if_pos h', if_pos h]
        · have e : n = 622 := by omega
          simp [hk0, e]
      · by_cases hki : k = q.1.i
        · have hkv : k.val = n + 1 := by rw [hki, hi]
          simp [hki, hi]
        · have hkv : k.val ≠ n + 1 := fun e => hki (Fin.ext (by rw [e, hi]))
          have hk0 : k ≠ 0 := fun e => hk (by simp [e])
          have hiff : k.val ≤ n + 1 ↔ k.val ≤ n := by omega
          simp [hki, hk0, hk, hiff]

/-- The vector and the position after `n ≤ 622` steps of the second pass of a key of at most 624 words. -/
theorem secondPass_upTo (key : List Word) (nonempty : 0 < key.length) (short : key.length ≤ 624) (mt : StateVector)
    (n : Nat) (hn : n ≤ 622) :
    ∃ q : PassState, secondPassStep^[n] (firstPass key nonempty (scalarVector keyStartSeed mt)) = q ∧
      q.i.val = (if n < 622 then n + 2 else 1) ∧
      ∀ k : Fin 624, k.val ≠ 0 ∨ n = 622 → readWord q.mt k =
        if k.val = 0 then secondPassed key 622
        else if k.val ≤ n + 1 then secondPassed key (k.val - 1) else firstPassed key k.val := by
  induction n with
  | zero =>
    obtain ⟨q, hq, hi, hj, hw⟩ := firstPass_upTo key nonempty mt 623 le_rfl
    rw [if_neg (by omega)] at hi
    have h0 : q.1.i ≠ 0 := fun e => by simp [e] at hi
    have hi1 : q.1.i = 1 := Fin.ext hi
    refine ⟨_, rfl, ?_, fun k hk => ?_⟩
    · unfold firstPass
      rw [Nat.max_eq_left short, Function.iterate_zero_apply, Function.iterate_succ_apply', hq, firstPassStep_i, hi]
      rfl
    · have hk0 : k.val ≠ 0 := by
        rcases hk with hk | hk
        · exact hk
        · simp at hk
      unfold firstPass
      rw [Nat.max_eq_left short, Function.iterate_zero_apply, Function.iterate_succ_apply', hq,
        firstPassStep_word key q h0]
      have hv : firstPassWord (readWord q.1.mt q.1.i) (readWord q.1.mt (indexBefore q.1.i)) (keyWord key q.2) q.2.val
          = firstPassedAgain key := by
        have hold : readWord q.1.mt q.1.i = firstPassed key 1 := by
          rw [hw, hi]; simp
        have hprev : readWord q.1.mt (indexBefore q.1.i) = firstPassed key 623 := by
          rw [hw, indexBefore_val, hi]; simp
        rw [hold, hprev, keyWord_eq_getD, hj]
        rfl
      rw [hv, hw k]
      have hkz : k ≠ 0 := fun e => hk0 (by simp [e])
      have hk623 : k.val ≤ 623 := by omega
      by_cases h1 : k = 1
      · simp [h1, hi1, secondPassed]
      · have : ¬ k.val ≤ 1 := by
          intro h
          exact h1 (Fin.ext (by show k.val = 1; omega))
        simp [h1, hi1, hk0, hkz, this, hk623]
  | succ n ih =>
    obtain ⟨q, hq, hi, hw⟩ := ih (by omega)
    rw [if_pos (by omega)] at hi
    have h0 : q.i ≠ 0 := fun e => by simp [e] at hi
    refine ⟨secondPassStep q, by rw [Function.iterate_succ_apply', hq], ?_, fun k hk => ?_⟩
    · rw [secondPassStep_i, hi]
      split <;> split <;> omega
    · have hv : secondPassWord (readWord q.mt q.i) (readWord q.mt (indexBefore q.i)) q.i.val
          = secondPassed key (n + 1) := by
        have hold : readWord q.mt q.i = firstPassed key (n + 2) := by
          rw [hw _ (.inl (by omega)), hi]; simp
        have hprev : readWord q.mt (indexBefore q.i) = secondPassed key n := by
          rw [hw _ (.inl (by rw [indexBefore_val]; omega)), indexBefore_val, hi]; simp
        rw [hold, hprev, hi]
        rfl
      rw [secondPassStep_word q h0, hv, hi]
      by_cases hk0 : k.val = 0
      · have hkz : k = 0 := Fin.ext hk0
        have e : n = 621 := by
          rcases hk with hk | hk
          · exact absurd hk0 hk
          · omega
        simp [hkz, e]
      · have hkz : k ≠ 0 := fun e => hk0 (by simp [e])
        rw [hw k (.inl hk0)]
        by_cases hki : k = q.i
        · have hkv : k.val = n + 2 := by rw [hki, hi]
          simp [hki, hi]
        · have hkv : k.val ≠ n + 2 := fun e => hki (Fin.ext (by rw [e, hi]))
          have hiff : k.val ≤ n + 1 + 1 ↔ k.val ≤ n + 1 := by omega
          simp [hki, hkz, hk0, hiff]

/-- The words SEEDK leaves, for a key of at most 624 words: word 0 forced, word 1 targeted last, the others in order. -/
theorem readWord_keyVector (key : List Word) (nonempty : 0 < key.length) (short : key.length ≤ 624) (mt : StateVector)
    (k : Fin 624) :
    readWord (keyVector key nonempty mt) k =
      if k.val = 0 then keyTopWord
      else if k.val = 1 then secondPassWord (firstPassedAgain key) (secondPassed key 622) 1
      else secondPassed key (k.val - 1) := by
  obtain ⟨q, hq, hi, hw⟩ := secondPass_upTo key nonempty short mt 622 le_rfl
  rw [if_neg (by omega)] at hi
  have h0 : q.i ≠ 0 := fun e => by simp [e] at hi
  have hi1 : q.i = 1 := Fin.ext hi
  unfold keyVector secondPass
  rw [readWord_writeWord]
  by_cases hk : k.val = 0
  · have hk0 : k = 0 := Fin.ext hk
    simp [hk0]
  · have hkz : k ≠ 0 := fun e => hk (by simp [e])
    rw [if_neg hkz, Function.iterate_succ_apply', hq, secondPassStep_word q h0, if_neg hk]
    by_cases h1 : k.val = 1
    · have hk1 : k = q.i := Fin.ext (by rw [h1, hi])
      have hold : readWord q.mt q.i = firstPassedAgain key := by
        rw [hw _ (.inr rfl), hi]; simp [secondPassed]
      have hprev : readWord q.mt (indexBefore q.i) = secondPassed key 622 := by
        rw [hw _ (.inr rfl), indexBefore_val, hi]; simp
      rw [if_pos (.inl hk1), hold, hprev, hi, if_pos h1]
    · have hne : k ≠ q.i := fun e => h1 (by rw [e, hi])
      have hle : k.val ≤ 622 + 1 := by omega
      rw [if_neg (by simp [hne, hkz]), hw _ (.inr rfl), if_neg hk, if_pos hle, if_neg h1]

end Sys2Proof.Machine
end

