-- ==== Sys2Proof/Laws/PerInstr.lean ====
section
/-! SUPPORT. Facts stated once for all commands and proved per constructor. -/

namespace Sys2Proof.Laws.EncodeShape

/-- The words of a command that an encoding exists for: a header with `RSV = 0` whose `LEN` counts the operand words
after it (R31, R32). -/
def Statement (i : Instr) : Prop :=
  wellFormed 65535 i = true →
    ∃ h ops, encode i = h :: ops ∧ headerRsv h = 0#8 ∧ headerLen h = ops.length

theorem seeds (seed : Word) : Statement (.seeds seed) :=
  fun _ => ⟨header opcSeeds 1, [seed], rfl, headerRsv_header _ _, headerLen_header _ (by decide)⟩

theorem seedk (key : List Word) : Statement (.seedk key) := by
  intro wf
  have hle : key.length ≤ 65535 := by
    simp only [wellFormed, Bool.and_eq_true, decide_eq_true_eq] at wf
    exact wf.2
  exact ⟨header opcSeedk key.length, key, rfl, headerRsv_header _ _, headerLen_header _ hle⟩

theorem next : Statement .next :=
  fun _ => ⟨header opcNext 0, [], rfl, headerRsv_header _ _, headerLen_header _ (by decide)⟩

end Sys2Proof.Laws.EncodeShape
end

