-- ==== Sys2Proof/Laws/Step.lean ====
section
/-! SUPPORT. Everything one step can do, said once. -/

namespace Sys2Proof.Machine

/-- The three results of taking a word (R41). -/
theorem fetch_cases (s : State) :
    (s.commands = [] ∧ fetch s = .waiting) ∨
    (∃ w rest, s.commands = w :: rest ∧ completeFrame? (s.frame ++ [w]) = none ∧
      fetch s = .stored { s with frame := s.frame ++ [w], commands := rest }) ∨
    (∃ w rest h ops, s.commands = w :: rest ∧ completeFrame? (s.frame ++ [w]) = some (h, ops) ∧
      fetch s = .complete h ops { s with frame := [], commands := rest }) := by
  cases hc : s.commands with
  | nil => exact .inl ⟨rfl, by simp [fetch, hc]⟩
  | cons w rest =>
    cases hf : completeFrame? (s.frame ++ [w]) with
    | none => exact .inr (.inl ⟨w, rest, rfl, hf, by simp [fetch, hc, hf]⟩)
    | some p =>
      obtain ⟨h, ops⟩ := p
      exact .inr (.inr ⟨w, rest, h, ops, rfl, hf, by simp [fetch, hc, hf]⟩)

/-- The three results of a step: wait, store a word, or execute a frame. -/
theorem stepWith_cases (kmax : Nat) (s : State) :
    (s.commands = [] ∧ stepWith kmax s = .next s) ∨
    (∃ w rest, s.commands = w :: rest ∧ completeFrame? (s.frame ++ [w]) = none ∧
      stepWith kmax s = .next { s with frame := s.frame ++ [w], commands := rest }) ∨
    (∃ w rest h ops, s.commands = w :: rest ∧ completeFrame? (s.frame ++ [w]) = some (h, ops) ∧
      stepWith kmax s = execCommand (decodeFrame kmax h ops) { s with frame := [], commands := rest }) := by
  obtain ⟨hc, hf⟩ | ⟨w, rest, hc, hn, hf⟩ | ⟨w, rest, h, ops, hc, hn, hf⟩ := fetch_cases s
  · exact .inl ⟨hc, by simp [stepWith, hf]⟩
  · exact .inr (.inl ⟨w, rest, hc, hn, by simp [stepWith, hf]⟩)
  · exact .inr (.inr ⟨w, rest, h, ops, hc, hn, by simp [stepWith, hf]⟩)

/-- Everything a command can do: a seeding, a draw, or an error response (R46, R55, R66, R88). -/
theorem execCommand_cases (c : Command) (s : State) :
    (∃ mt, execCommand c s = .next
        { s with mt := mt, idx := 624, seeded := true, responses := s.responses ++ [0#32, 0#32] }) ∨
    (execCommand c s = .next { (draw s).2 with responses := (draw s).2.responses ++ [0#32, (draw s).1] }) ∨
    (∃ cause h, execCommand c s = .next
        { s with responses := s.responses ++ [statusWord (.refused cause), h] }) := by
  cases c with
  | bad cause h => exact .inr (.inr ⟨cause, h, rfl⟩)
  | instr i =>
    cases i with
    | seeds seed => exact .inl ⟨_, execSeeds_eq seed s⟩
    | seedk key =>
      by_cases h : 0 < key.length
      · exact .inl ⟨_, execSeedk_eq h s⟩
      · refine .inr (.inr ⟨.badLength, header opcSeedk 0, ?_⟩)
        simp only [execCommand, exec, execSeedk, dif_neg h]
        rfl
    | next => exact .inr (.inl (execNext_eq s))

/-- A command appends the same response and changes the engine the same way whatever FRAME and the streams hold. -/
theorem execCommand_streams (c : Command) (s : State) :
    ∃ (t : State) (status data : Word), ∀ f cs r,
      execCommand c { s with frame := f, commands := cs, responses := r } =
        .next { t with frame := f, commands := cs, responses := r ++ [status, data] } := by
  cases c with
  | bad cause h => exact ⟨s, _, _, fun f cs r => rfl⟩
  | instr i =>
    cases i with
    | seeds seed =>
      exact ⟨{ s with mt := scalarVector seed s.mt, idx := 624, seeded := true }, 0#32, 0#32,
        fun f cs r => execSeeds_eq seed { s with frame := f, commands := cs, responses := r }⟩
    | seedk key =>
      by_cases h : 0 < key.length
      · exact ⟨{ s with mt := keyVector key h s.mt, idx := 624, seeded := true }, 0#32, 0#32,
          fun f cs r => execSeedk_eq h { s with frame := f, commands := cs, responses := r }⟩
      · refine ⟨s, statusWord (.refused .badLength), header opcSeedk 0, fun f cs r => ?_⟩
        simp only [execCommand, exec, execSeedk, dif_neg h]
        rfl
    | next =>
      refine ⟨(draw s).2, 0#32, (draw s).1, fun f cs r => ?_⟩
      simp only [execCommand, exec, execNext_eq, draw_streams]

end Sys2Proof.Machine
end

