-- ==== Sys2Proof/Tests/Slice0.lean ====
section
/-! SUPPORT. The model's own tests. Every expected number is from the spec: 95_test_vectors.md, the worked examples of the
rules, or words written out from the encoding rules. The witnesses of the statements are in Tests/Witnesses.lean. -/

namespace Sys2Proof.Tests

open Sys2Proof Sys2Proof.Machine Sys2Proof.Rules

/-! ### Helpers -/

/-- A field of the state a command or step leaves, if it leaves one. -/
def leaves {α : Type} (o : Host.Outcome State Fault Refusal) (field : State → α) : Option α :=
  match o with
  | .next t => some (field t)
  | .fault _ => none
  | .refused _ => none

/-- The reset state with these words on the command stream. -/
def sent (ws : List Word) : State := hostSend ws State.reset

/-- A seeded engine of zero words with its cursor at `i`. -/
def seededAt (i : Fin 625) : State := { State.reset with seeded := true, idx := i }

/-- The vector with one word set. -/
def oneWord (i : Fin 624) (v : Word) : StateVector := writeWord State.reset.mt i v

/-! ### WellFormed (R50): an ill-formed term for each check -/

theorem test_wellFormed_refuses_empty_key : wellFormed 65535 (.seedk []) = false := by decide
theorem test_wellFormed_refuses_long_key : wellFormed 2 (.seedk [1#32, 2#32, 3#32]) = false := by decide
theorem test_wellFormed_takes_longest_key : wellFormed 3 (.seedk [1#32, 2#32, 3#32]) = true := by decide

/-! ### Encoding and decoding: words written out bit by bit from R31 and R34 to R36 (OPC, RSV, LEN) -/

theorem test_decode_seeds :
    decode 65535 [0b00000001_00000000_0000000000000001#32, 5489#32] = some (.instr (.seeds 5489#32), []) := by decide
theorem test_decode_seedk_order :
    decode 65535 [0b00000010_00000000_0000000000000011#32, 7#32, 0#32, 9#32, 0x03000000#32] =
      some (.instr (.seedk [7#32, 0#32, 9#32]), [0x03000000#32]) := by decide
theorem test_decode_next :
    decode 65535 [0b00000011_00000000_0000000000000000#32] = some (.instr .next, []) := by decide
theorem test_decode_priority_opcode : decodeFrame 65535 0x00ff0007#32 (List.replicate 7 0#32) =
    .bad .illegalOpcode 0x00ff0007#32 := by decide
theorem test_decode_priority_reserved : decodeFrame 65535 0x03010001#32 [0x55#32] =
    .bad .reservedNonzero 0x03010001#32 := by decide
theorem test_decode_incomplete : decode 65535 [0x02000003#32, 1#32, 2#32] = none := by decide
theorem test_decodeTableWord_rows :
    decodeTableWord 32 0x01000001 = some (.seeds 0#32) ∧ decodeTableWord 32 0x02000002 = some (.seedk [0#32, 0#32]) ∧
      decodeTableWord 32 0x03000000 = some .next := by decide
theorem test_decodeTableWord_refuses_empty_key : decodeTableWord 32 0x02000000 = none := by decide
theorem test_decodeTableWord_operand_above_header :
    decodeTableWord 64 (5489 * 2 ^ 32 + 0x01000001) = some (.seeds 5489#32) := by decide

/-! ### SEEDS: words of 95 section 6 -/

theorem test_seeds_5489_last_word (s : State) :
    leaves (exec (.seeds 5489#32) s) (fun t => readWord t.mt 623) = some 0x04c46d8c#32 := by
  have h : scalarWord 5489#32 623 = 0x04c46d8c#32 := by decide +kernel
  simp [exec, execSeeds_eq, leaves, readWord_scalarVector, h]

theorem test_seeds_all_ones_first_words : scalarNext 0xffffffff#32 1 = 0x4fe1da6d#32 ∧
    scalarNext 0x4fe1da6d#32 2 = 0xeaf2f89e#32 := by decide

/-! ### SEEDK: trace of 95 section 4.1 -/

theorem test_key_pass_words :
    firstPassWord 0x82d2ab13#32 0x012bd6aa#32 0x123#32 0 = 0xff890ad4#32 ∧
    firstPassWord 0xff890ad4#32 0x0590e802#32 0x456#32 3 = 0x5377a327#32 ∧
    secondPassWord 0x9766a291#32 0x5377a327#32 2 = 0x51be5d6d#32 ∧
    secondPassWord 0x5377a327#32 0x049ed813#32 1 = 0x6cf23357#32 := by decide

/-- Pass 1, step 623 of the trace: word 623 written, copied into word 0, `i` back to 1, `j` on to 3. -/
theorem test_firstPass_wrap :
    let q := firstPassStep [0x123#32, 0x234#32, 0x345#32, 0x456#32]
      (⟨writeWord (oneWord 622 0xa658fd7f#32) 623 0xad2949e2#32, 623⟩, ⟨2, by decide⟩)
    readWord q.1.mt 623 = 0x0590e802#32 ∧ readWord q.1.mt 0 = 0x0590e802#32 ∧ q.1.i = 1 ∧ q.2.val = 3 := by
  decide +kernel

theorem test_seedk_1234_last_word (s : State) :
    leaves (exec (.seedk [0x123#32, 0x234#32, 0x345#32, 0x456#32]) s)
      (fun t => (readWord t.mt 0, readWord t.mt 1, readWord t.mt 623)) =
      some (0x80000000#32, 0x6cf23357#32, 0x049ed813#32) := by
  have h1 : secondPassWord (firstPassedAgain [0x123#32, 0x234#32, 0x345#32, 0x456#32])
      (secondPassed [0x123#32, 0x234#32, 0x345#32, 0x456#32] 622) 1 = 0x6cf23357#32 := by decide +kernel
  have h2 : secondPassed [0x123#32, 0x234#32, 0x345#32, 0x456#32] 622 = 0x049ed813#32 := by decide +kernel
  rw [h2] at h1
  simp [exec, execSeedk_eq (key := [0x123#32, 0x234#32, 0x345#32, 0x456#32]) (by decide), leaves,
    readWord_keyVector, keyTopWord, h1, h2]

/-! ### The twist: 95 section 3 and R62 -/

theorem test_twistWord_single_steps :
    twistWord 0x7fffffff#32 0x80000000#32 0#32 = 0#32 ∧
    twistWord 0xffffffff#32 0xffffffff#32 0xffffffff#32 = 0x1908b0df#32 ∧
    twistWord 0x9a49043d#32 0xa3cd64bf#32 0x9b0afa27#32 = 0x53e4f8a7#32 := by decide

/-- R62, k = 227: the source word is the new word 0, not the old one (which would give 0xc8ee17f1). -/
theorem test_twist_word_227 (s : State) :
    readWord (twist (initScalar 5489#32 s)).mt 227 = 0x53e4f8a7#32 := by
  have src : readWord (twistUpTo (scalarVector 5489#32 s.mt) 227) (indexPlus 227 twistOffset) =
      twistWord (scalarWord 5489#32 0) (scalarWord 5489#32 1) (scalarWord 5489#32 397) := by
    rw [show indexPlus 227 twistOffset = (0 : Fin 624) from by decide,
      readWord_twistUpTo_new _ 227 (by decide) 0 (by decide), readWord_twistVector]
    show twistWord (readWord (twistUpTo _ 0) _) (readWord (twistUpTo _ 0) _) (readWord (twistUpTo _ 0) _) = _
    simp only [twistUpTo, readWord_scalarVector]
    rfl
  have old : ∀ j : Fin 624, 227 ≤ j.val →
      readWord (twistUpTo (scalarVector 5489#32 s.mt) 227) j = scalarWord 5489#32 j.val := by
    intro j hj
    rw [readWord_twistUpTo_old _ _ _ hj, readWord_scalarVector]
  have h : twistWord (scalarWord 5489#32 227) (scalarWord 5489#32 228)
      (twistWord (scalarWord 5489#32 0) (scalarWord 5489#32 1) (scalarWord 5489#32 397)) = 0x53e4f8a7#32 := by
    decide +kernel
  rw [twist_mt, initScalar_mt, readWord_twistVector]
  show twistWord (readWord (twistUpTo _ 227) 227) (readWord (twistUpTo _ 227) _) (readWord (twistUpTo _ 227) _) = _
  rw [src, old _ (by decide), old _ (by decide)]
  exact h

/-! ### Tempering: 95 section 5 -/

theorem test_temper_one : temper 0x00000001#32 = 0x00400091#32 := by decide
theorem test_temper_stages : temperStage1 0x9b0afa27#32 = 0x9b199b78#32 ∧ temperStage2 0x9b199b78#32 = 0x17158f78#32 ∧
    temperStage3 0x17158f78#32 = 0xd0918f78#32 ∧ temperStage4 0xd0918f78#32 = 0xd091bb5c#32 := by decide
theorem test_untemper : untemper 0xd091bb5c#32 = 0x9b0afa27#32 := by decide

/-! ### NEXT -/

/-- 95 section 2, draw 1: NEXT right after reset seeds with 5489, twists, and answers 0xd091bb5c. -/
theorem test_next_after_reset :
    leaves (exec .next State.reset) (fun t => (t.responses, t.idx, t.seeded)) =
      some ([0#32, 0xd091bb5c#32], 1, true) := by
  have w : readWord (twistVector (scalarVector defaultSeed State.reset.mt)) 0 =
      twistWord (scalarWord 5489#32 0) (scalarWord 5489#32 1) (scalarWord 5489#32 397) := by
    rw [readWord_twistVector]
    show twistWord (readWord (twistUpTo _ 0) _) (readWord (twistUpTo _ 0) _) (readWord (twistUpTo _ 0) _) = _
    simp only [twistUpTo, readWord_scalarVector]
    rfl
  have h : temper (twistWord (scalarWord 5489#32 0) (scalarWord 5489#32 1) (scalarWord 5489#32 397)) = 0xd091bb5c#32 := by
    decide +kernel
  have d : draw State.reset = (0xd091bb5c#32, _) :=
    (draw_never reset_seeded).trans ((draw_exhausted (initScalar_seeded _ _) (by simp)).trans
      (by rw [initScalar_mt, w, h]))
  simp [exec, execNext_eq, leaves, d]

/-- The first draw after a key seeding, 95 section 4.1: 0x3fa23623. -/
theorem test_next_after_seedk :
    temper (readWord (twistVector (keyVector [0x123#32, 0x234#32, 0x345#32, 0x456#32] (by decide) State.reset.mt)) 0) =
      0x3fa23623#32 := by
  have h : temper (twistWord keyTopWord
      (secondPassWord (firstPassedAgain [0x123#32, 0x234#32, 0x345#32, 0x456#32])
        (secondPassed [0x123#32, 0x234#32, 0x345#32, 0x456#32] 622) 1)
      (secondPassed [0x123#32, 0x234#32, 0x345#32, 0x456#32] 396)) = 0x3fa23623#32 := by decide +kernel
  rw [readWord_twistVector]
  show temper (twistWord (readWord (twistUpTo _ 0) _) (readWord (twistUpTo _ 0) _) (readWord (twistUpTo _ 0) _)) = _
  simp only [twistUpTo, readWord_keyVector _ _ (show [0x123#32, 0x234#32, 0x345#32, 0x456#32].length ≤ 624 by decide)]
  exact h

/-- R66 corner case: a draw at cursor 623 does not twist and leaves the cursor at 624. -/
theorem test_next_at_623 :
    leaves (exec .next { seededAt 623 with mt := oneWord 623 1#32 }) (fun t => (t.responses, t.idx)) =
      some ([0#32, 0x00400091#32], 624) := by decide +kernel

/-! ### Steps, frames and the environment: 95 section 8 -/

/-- P4: a refused NEXT with RSV = 1 answers (2, header) and leaves the flag and the cursor. -/
theorem test_step_refused :
    leaves (step (sent [0x03010000#32])) (fun t => (t.responses, t.frame, t.idx, t.seeded)) =
      some ([2#32, 0x03010000#32], [], 624, false) := by decide

/-- P4: the words after an illegal header with LEN = 2 are swallowed, not executed. -/
theorem test_step_swallows_operands :
    leaves (step { sent [0x03000000#32, 0x03010000#32] with frame := [0x7f000002#32, 0x03000000#32] })
      (fun t => (t.responses, t.frame, t.commands, t.seeded)) =
      some ([1#32, 0x7f000002#32], [], [0x03010000#32], false) := by decide

/-- P5: an incomplete frame is stored and waits. -/
theorem test_step_incomplete :
    leaves (step { sent [2#32] with frame := [0x02000003#32, 1#32] }) (fun t => (t.frame, t.responses)) =
      some ([0x02000003#32, 1#32, 2#32], []) := by decide

/-- The instruction placed by withFetchWord is the one the very next step runs. -/
theorem test_withFetchWord_runs_seeds :
    step (State.reset.withFetchWord 32 0x01000001) = exec (.seeds 0#32) State.reset := by rfl

theorem test_reset_event_drops_frame_and_responses :
    (resetEvent (oneWord 5 7#32) { seededAt 3 with frame := [0x02000003#32], responses := [0#32] }).frame = [] ∧
    (resetEvent (oneWord 5 7#32) { seededAt 3 with frame := [0x02000003#32], responses := [0#32] }).responses = [] ∧
    (resetEvent (oneWord 5 7#32) (seededAt 3)).idx = 624 := by decide

theorem test_hostTake_oldest_first :
    (hostTake { State.reset with responses := [1#32, 2#32] }).map Prod.fst = some 1#32 := by decide

/-! ### The library and the assembler: 95 section 9, 30_encoding.md sections 7 and 95 section 7 -/

/-- The arithmetic of 95 section 9, call 6: 4161255391 in 4294967286..4294967291 gives 4294967287. -/
theorem test_bounded_draw_arithmetic :
    4161255391 % (4294967291 - 4294967286 + 1) + 4294967286 = 4294967287 := by decide

theorem test_bounded_draw_refuses_equal_bounds :
    ((nextInRange 5#32 5#32 (seededAt 3)).1.toOption, (nextInRange 5#32 5#32 (seededAt 3)).2.idx) = (none, 3) := by decide

theorem test_assemble_text :
    assembleText 65535 "SEEDS 5489 ; seed\nNEXT 2\n\nSEEDK 0x123, 7\n.word 0x7f000002" =
      some [0x01000001#32, 0x1571#32, 0x03000000#32, 0x03000000#32, 0x02000002#32, 0x123#32, 7#32, 0x7f000002#32] := by
  decide +kernel

theorem test_assemble_text_refuses : assembleText 65535 "SEEDK" = none ∧
    assembleText 65535 "SEEDS 4294967296" = none ∧ assembleText 1 "SEEDK 1, 2" = none := by
  decide +kernel

/-- R78's alternative is a value of the parameter: negative bounds refused outright, the others taken as they are. -/
theorem test_signed_draw_may_refuse_negative_bounds :
    let refusing : Int → Int → Option (Word × Word) :=
      fun a b => if a < 0 ∨ b < 0 then none else Config.signedBounds a b
    refusing 1 6 = Config.signedBounds 1 6 ∧
      ((nextInRangeSigned refusing (-10) (-5) (seededAt 3)).1.toOption,
        (nextInRangeSigned refusing (-10) (-5) (seededAt 3)).2.idx) = (none, 3) := by decide

end Sys2Proof.Tests
end

