-- ==== Sys2Proof/Tests/Witnesses.lean ====
section
/-! SUPPORT. For each statement with hypotheses, a concrete state and operands that meet all of them together, one for
each clause where a statement has several, at the edges of the clause's range. -/

namespace Sys2Proof.Tests

open Sys2Proof Sys2Proof.Machine Sys2Proof.Rules

/-! ### Encoding and decoding -/

theorem witness_EncodeThenDecodeIsIdentity :
    Config.LegalKmax 65535 ∧ Config.LegalKmax 1 ∧ wellFormed 65535 (.seedk [0#32]) = true ∧
      wellFormed 1 (.seedk [7#32]) = true ∧ [5489#32].length = headerLen 0x01000001#32 ∧
      decodeFrame 1 0x01000001#32 [5489#32] = .instr (.seeds 5489#32) := by decide

/-- One header for each clause, at its edges: nearest illegal OPC 0 and 4; RSV 1 beside a wrong LEN; SEEDS with 0 and 2;
SEEDK with 0 and KMAX + 1; NEXT with 1; then SEEDS, SEEDK with 1 and KMAX, NEXT (KMAX = 2). -/
theorem witness_DecoderChecksInOrder :
    (0x00ff0000#32).toNat / 2 ^ 24 = 0 ∧ (0x04000000#32).toNat / 2 ^ 24 = 4 ∧
    ((0x03010001#32).toNat / 2 ^ 24 = 3 ∧ (0x03010001#32).toNat / 2 ^ 16 % 2 ^ 8 = 1 ∧
      [0x55#32].length = (0x03010001#32).toNat % 2 ^ 16) ∧
    (([] : List Word).length = (0x01000000#32).toNat % 2 ^ 16 ∧ (0x01000000#32).toNat / 2 ^ 24 = 1) ∧
    ([1#32, 2#32].length = (0x01000002#32).toNat % 2 ^ 16 ∧ (0x01000002#32).toNat / 2 ^ 24 = 1) ∧
    (([] : List Word).length = (0x02000000#32).toNat % 2 ^ 16 ∧ (0x02000000#32).toNat / 2 ^ 24 = 2) ∧
    ([1#32, 2#32, 3#32].length = (0x02000003#32).toNat % 2 ^ 16 ∧ 2 < (0x02000003#32).toNat % 2 ^ 16) ∧
    ([1#32].length = (0x03000001#32).toNat % 2 ^ 16 ∧ (0x03000001#32).toNat / 2 ^ 24 = 3) ∧
    ([1#32].length = (0x01000001#32).toNat % 2 ^ 16 ∧ (0x01000001#32).toNat / 2 ^ 16 % 2 ^ 8 = 0) ∧
    ([1#32].length = (0x02000001#32).toNat % 2 ^ 16 ∧ [1#32, 2#32].length = (0x02000002#32).toNat % 2 ^ 16) ∧
    (([] : List Word).length = (0x03000000#32).toNat % 2 ^ 16 ∧ (0x03000000#32).toNat / 2 ^ 24 = 3) := by decide

/-! ### Framing and the step -/

theorem witness_StepRunsTheDecodedCommand :
    (sent [0x03000000#32, 7#32]).commands = 0x03000000#32 :: [7#32] ∧
      (sent [0x03000000#32, 7#32]).frame ++ [0x03000000#32] = 0x03000000#32 :: [] ∧
      ([] : List Word).length = headerLen 0x03000000#32 ∧ decodeFrame Config.kmax 0x03000000#32 [] = .instr .next := by
  decide

theorem witness_RefusedFrameChangesOnlyResponses :
    (sent [0x03010000#32]).commands = 0x03010000#32 :: [] ∧
      (sent [0x03010000#32]).frame ++ [0x03010000#32] = 0x03010000#32 :: [] ∧
      ([] : List Word).length = headerLen 0x03010000#32 ∧
      decodeFrame 65535 0x03010000#32 [] = .bad .reservedNonzero 0x03010000#32 := by decide

theorem witness_IncompleteFrameWaits :
    ((sent [0x01000001#32]).commands = 0x01000001#32 :: [] ∧
      (sent [0x01000001#32]).frame ++ [0x01000001#32] = 0x01000001#32 :: [] ∧
      ([] : List Word).length < headerLen 0x01000001#32) ∧
    State.reset.commands = [] ∧
    ((sent [0x02000003#32, 1#32, 2#32]).frame = [] ∧
      (sent [0x02000003#32, 1#32, 2#32]).commands = 0x02000003#32 :: [1#32, 2#32] ∧
      [1#32, 2#32].length < headerLen 0x02000003#32 ∧ [1#32, 2#32].length < 3) := by decide

theorem witness_WordLevelAgreesWithCommandLevel :
    (sent [0x01000001#32, 5489#32, 0x03000000#32]).frame = [] ∧
      (sent [0x01000001#32, 5489#32, 0x03000000#32]).commands = 0x01000001#32 :: ([5489#32] ++ [0x03000000#32]) ∧
      [5489#32].length = headerLen 0x01000001#32 := by decide

theorem witness_FramesRunInOrder :
    (sent [0x01000001#32, 5489#32, 0x03000000#32]).frame = [] ∧
      (∀ f ∈ [(0x01000001#32, [5489#32])] ++ [(0x03000000#32, [])], IsFrame f) ∧
      (sent [0x01000001#32, 5489#32, 0x03000000#32]).commands =
        frameWords ([(0x01000001#32, [5489#32])] ++ [(0x03000000#32, [])]) := by
  refine ⟨rfl, ?_, rfl⟩
  intro f hf
  simp only [List.cons_append, List.nil_append, List.mem_cons, List.not_mem_nil, or_false] at hf
  obtain rfl | rfl := hf <;> (unfold IsFrame; decide)

theorem witness_OneTwoWordResponsePerFrame :
    (∃ t, stepWith 65535 (sent [0x02000000#32]) = .next t) ∧
      (sent [0x02000000#32]).frame ++ [0x02000000#32] = 0x02000000#32 :: [] ∧
      ([] : List Word).length = headerLen 0x02000000#32 ∧
    (∃ t, stepWith 65535 (sent [0x02000001#32]) = .next t) ∧
      ([] : List Word).length < headerLen 0x02000001#32 ∧
    (∃ t, stepWith 65535 State.reset = .next t) ∧ State.reset.commands = [] :=
  ⟨⟨_, rfl⟩, by decide, by decide, ⟨_, rfl⟩, by decide, ⟨_, rfl⟩, rfl⟩

/-! ### The commands -/

theorem witness_ScalarSeedingForgetsThePast :
    (∃ t, exec (.seeds 0#32) State.reset = .next t) ∧ (∃ t, exec (.seeds 0xffffffff#32) (seededAt 3) = .next t) ∧
      (0#32 : Word) ≠ 0xffffffff#32 ∧
      ∃ t u, exec (.seeds 0#32) State.reset = .next t ∧ exec .next t = .next u :=
  ⟨⟨_, rfl⟩, ⟨_, rfl⟩, by decide, ⟨_, _, rfl, rfl⟩⟩

theorem witness_SeedkFollowsTheTwoPasses : 0 < ([0#32] : List Word).length := by decide

theorem witness_KeySeedingForgetsThePast :
    0 < ([0#32] : List Word).length ∧ (∃ t, exec (.seedk [0#32]) State.reset = .next t) ∧
      ∃ t, exec (.seedk [0#32]) (seededAt 624) = .next t :=
  ⟨by decide, ⟨_, execSeedk_eq (by decide) _⟩, ⟨_, execSeedk_eq (by decide) _⟩⟩

theorem witness_KeyPassPositions :
    0 < ([5#32] : List Word).length ∧ (List.replicate 625 5#32).length = 625 ∧
      (⟨State.reset.mt, 623⟩ : PassState).i ≠ 0 := by
  refine ⟨by decide, List.length_replicate, by decide⟩

theorem witness_SecondPassTargetsEachWordOnce :
    (⟨State.reset.mt, 1⟩ : PassState).i ≠ 0 ∧ (623 : Fin 624) ≠ 0 ∧ (1 : Fin 624) ≠ 0 := by decide

theorem witness_TwistClosedForm :
    (∃ n, n = twistVector State.reset.mt) ∧ 0 ≤ 226 ∧ (227 ≤ 227 ∧ 227 ≤ 622) ∧ 227 ≤ 622 ∧ 622 ≤ 622 :=
  ⟨⟨_, rfl⟩, by decide, by decide, by decide, by decide⟩

theorem witness_NextDrawsOneWord :
    ((seededAt 0).seeded = true ∧ (seededAt 0).idx.val = (0 : Fin 624).val) ∧
    ((seededAt 623).seeded = true ∧ (seededAt 623).idx.val = (623 : Fin 624).val) ∧
    ((seededAt 624).seeded = true ∧ (seededAt 624).idx = 624) ∧ State.reset.seeded = false := by decide

theorem witness_TwistRunsExactlyWhenExhausted :
    ready (seededAt 623) = true ∧ exhausted (seededAt 624) = true ∧ exhausted State.reset = true := by decide

theorem witness_DefaultSeedingHappensOnce :
    State.reset.seeded = false ∧ ((seededAt 624).seeded = true ∧ ∃ t, stepWith 65535 (seededAt 624) = .next t) ∧
    (Instr.seedk [0#32] ≠ .next ∧ wellFormed 1 (.seedk [0#32]) = true) ∧
    ((seededAt 623).seeded = true ∧ (seededAt 623).idx ≠ 624) ∧ (seededAt 624).idx = 624 :=
  ⟨rfl, ⟨rfl, ⟨_, rfl⟩⟩, by decide, by decide, rfl⟩

theorem witness_OnlyResetClearsSeeded :
    ((seededAt 3).seeded = true ∧ (applyEvent 65535 (.reset State.reset.mt) (seededAt 3)).seeded = false) ∧
    ((sent [0x03000000#32]).seeded = false ∧ (applyEvent 65535 .tick (sent [0x03000000#32])).seeded = true) := by
  refine ⟨⟨rfl, rfl⟩, rfl, ?_⟩
  have h : stepWith 65535 (sent [0x03000000#32]) = execNext { sent [0x03000000#32] with commands := [] } := rfl
  simp only [applyEvent, h, execNext_eq]
  rw [draw_never rfl, draw_exhausted (initScalar_seeded _ _) (by simp)]
  rfl

theorem witness_OutputStreamByGenerations :
    ((seededAt 624).seeded = true ∧ (seededAt 624).idx = 624) ∧
    (∀ c ∈ [Command.instr .next, .bad .badLength 0x02000000#32, .instr .next],
      c = .instr .next ∨ ∃ cause h, c = .bad cause h) ∧
    (Instr.seedk [7#32] ≠ .next ∧ wellFormed 65535 (.seedk [7#32]) = true ∧
      ∃ t, exec (.seedk [7#32]) State.reset = .next t) := by
  refine ⟨by decide, ?_, by decide, by decide, ⟨_, execSeedk_eq (by decide) _⟩⟩
  intro c hc
  simp only [List.mem_cons, List.not_mem_nil, or_false] at hc
  obtain rfl | rfl | rfl := hc
  · exact .inl rfl
  · exact .inr ⟨_, _, rfl⟩
  · exact .inl rfl

theorem witness_SameSeedSameStream :
    Instr.seeds 0#32 ≠ .next ∧ wellFormed 65535 (.seeds 0#32) = true := by decide

/-! ### Whole-machine rules -/

theorem witness_CursorAfterEachCommand :
    (∃ t, exec .next (seededAt 623) = .next t) ∧ (∃ t, exec .next (seededAt 624) = .next t) ∧
      (∃ t, exec (.seeds 1#32) (seededAt 1) = .next t) ∧ 0 < ([1#32] : List Word).length ∧
      ∃ t, exec (.seedk [1#32]) (seededAt 1) = .next t :=
  ⟨⟨_, rfl⟩, ⟨_, rfl⟩, ⟨_, rfl⟩, by decide, ⟨_, execSeedk_eq (by decide) _⟩⟩

theorem witness_StepKeepsSound :
    Sound { sent [1#32] with frame := [0x02000002#32] } ∧
      ∃ t, stepWith 65535 { sent [1#32] with frame := [0x02000002#32] } = .next t :=
  ⟨⟨by decide, fun _ => rfl⟩, ⟨_, rfl⟩⟩

theorem witness_EventsKeepSound : Sound (seededAt 5) :=
  ⟨rfl, fun h => by simp [seededAt] at h⟩

/-- A seeded engine whose vector has one word only, at the far end, about to twist. -/
theorem witness_StepKeepsLive :
    Live { seededAt 624 with mt := oneWord 623 1#32, commands := [0x03000000#32] } ∧
      NotAllZero (oneWord 623 1#32) ∧
      ∃ t, stepWith 65535 { seededAt 624 with mt := oneWord 623 1#32, commands := [0x03000000#32] } = .next t := by
  have h : NotAllZero (oneWord 623 1#32) :=
    .inr ⟨623, by decide, by unfold oneWord; rw [readWord_writeWord_self]; decide⟩
  exact ⟨fun _ => h, h, ⟨_, rfl⟩⟩

theorem witness_UnseededWordsAreUnobservable :
    (sent [0x03000000#32]).seeded = false ∧ (sent [0x03000000#32]).idx = 624 := by decide

/-! ### The host's side -/

theorem witness_HostGetsTheResponse :
    wellFormed 65535 (.seedk [1#32]) = true ∧ Config.LegalKmax 65535 ∧ (seededAt 624).frame = [] ∧
      (seededAt 624).commands = [] ∧ (seededAt 624).responses = [] := by decide

theorem witness_BoundedDraw :
    (5#32).toNat ≤ (5#32).toNat ∧ (0#32).toNat < (0xffffffff#32).toNat ∧ (4#32).toNat < (5#32).toNat := by decide

theorem witness_SignedBoundedDraw :
    ((-2 : Int) ^ 31 ≤ -2 ^ 31 ∧ (2 : Int) ^ 31 - 1 < 2 ^ 31) ∧
    ((0 : Int) ≤ 0 ∧ (0 : Int) < 2 ^ 31 - 1) ∧ ((-2 : Int) ^ 31 < 0 ∧ (0 : Int) ≤ 0) ∧
    ((-2 : Int) ^ 31 < -1 ∧ (-1 : Int) < 0) := by decide

theorem witness_AutoSeedIsOneSeedk :
    1 ≤ ([255#8] : List (BitVec 8)).length ∧ ([255#8] : List (BitVec 8)).length ≤ 1 := by decide

theorem witness_AssemblyLines :
    (Config.LegalKmax 1 ∧ 1 ≤ ([1#32] : List Word).length ∧ ([1#32] : List Word).length ≤ 1) ∧
    (Config.LegalKmax 1 ∧ ([] : List Word).length = 0 ∧ 1 < ([1#32, 2#32] : List Word).length) := by decide

end Sys2Proof.Tests
end

/-! SUPPORT. Facts about the step and the events that the statements of 10_state.md share: what a command leaves, the step
case by case, and each event as one equation. -/

namespace Sys2Proof.Machine

/-! ### What executing a command leaves -/

/-- NEXT completes with this state (R66). -/
theorem exec_next (s : State) :
    exec .next s = .next { (draw s).2 with responses := (draw s).2.responses ++ [0#32, (draw s).1] } :=
  execNext_eq s

/-- A draw leaves the engine seeded (R65). -/
theorem draw_seeded (s : State) : (draw s).2.seeded = true := by
  obtain ⟨k, hs, -, e⟩ | ⟨hs, -, e⟩ | ⟨-, e⟩ := draw_cases s
  · rw [e]; exact hs
  · rw [e]; exact hs
  · rw [e]

/-- A draw leaves the cursor behind the word it took (R11). -/
theorem draw_idx_pos (s : State) : 1 ≤ (draw s).2.idx.val := by
  obtain ⟨k, -, -, e⟩ | ⟨-, -, e⟩ | ⟨-, e⟩ := draw_cases s
  · rw [e]; exact Nat.succ_pos k.val
  · rw [e]; exact Nat.one_pos
  · rw [e]; exact Nat.one_pos

theorem execCommand_completes (c : Command) (s : State) : ∃ t, execCommand c s = .next t := by
  obtain ⟨t, status, data, e⟩ := execCommand_streams c s
  exact ⟨_, e s.frame s.commands s.responses⟩

theorem execCommand_frame {c : Command} {s t : State} (e : execCommand c s = .next t) : t.frame = s.frame := by
  obtain ⟨u, status, data, eu⟩ := execCommand_streams c s
  cases e.symm.trans (eu s.frame s.commands s.responses)
  rfl

/-- A command seeds the engine or leaves the cursor and the flag alone (R12, R88). -/
theorem execCommand_seeds_or_keeps {c : Command} {s t : State} (e : execCommand c s = .next t) :
    t.seeded = true ∨ (t.seeded = s.seeded ∧ t.idx = s.idx) := by
  obtain ⟨mt, e'⟩ | e' | ⟨cause, h, e'⟩ := execCommand_cases c s <;> cases e.symm.trans e'
  · exact .inl rfl
  · exact .inl (draw_seeded s)
  · exact .inr ⟨rfl, rfl⟩

theorem execCommand_keeps_sound {c : Command} {s t : State} (hs : Sound s) (e : execCommand c s = .next t) :
    Sound t := by
  obtain ⟨hframe, hidx⟩ := hs
  refine ⟨execCommand_frame e ▸ hframe, fun ht => ?_⟩
  obtain h | ⟨hseeded, hcursor⟩ := execCommand_seeds_or_keeps e
  · simp [h] at ht
  · exact hcursor.trans (hidx (hseeded ▸ ht))

/-! ### The step, case by case -/

theorem stepWith_of_no_word (kmax : Nat) {s : State} (hc : s.commands = []) : stepWith kmax s = .next s := by
  simp [stepWith, fetch, hc]

theorem stepWith_of_incomplete (kmax : Nat) {s : State} {w : Word} {rest : List Word} (hc : s.commands = w :: rest)
    (hf : completeFrame? (s.frame ++ [w]) = none) :
    stepWith kmax s = .next { s with frame := s.frame ++ [w], commands := rest } := by
  simp [stepWith, fetch, hc, hf]

theorem stepWith_of_complete (kmax : Nat) {s : State} {w h : Word} {rest ops : List Word}
    (hc : s.commands = w :: rest) (hf : completeFrame? (s.frame ++ [w]) = some (h, ops)) :
    stepWith kmax s = execCommand (decodeFrame kmax h ops) { s with frame := [], commands := rest } := by
  simp [stepWith, fetch, hc, hf]

theorem stepWith_completes (kmax : Nat) (s : State) : ∃ t, stepWith kmax s = .next t := by
  obtain ⟨-, e⟩ | ⟨w, rest, -, -, e⟩ | ⟨w, rest, h, ops, -, -, e⟩ := stepWith_cases kmax s
  · exact ⟨_, e⟩
  · exact ⟨_, e⟩
  · rw [e]
    exact execCommand_completes _ _

/-- A list of words is open exactly when it is no whole frame yet (R17, R41). -/
theorem frameOpen_iff_completeFrame?_eq_none (words : List Word) :
    frameOpen words = true ↔ completeFrame? words = none := by
  cases words <;> simp [frameOpen, completeFrame?]

theorem stepWith_keeps_sound {kmax : Nat} {s t : State} (hs : Sound s) (e : stepWith kmax s = .next t) : Sound t := by
  obtain ⟨hframe, hidx⟩ := hs
  obtain ⟨-, e'⟩ | ⟨w, rest, -, hf, e'⟩ | ⟨w, rest, h, ops, -, -, e'⟩ := stepWith_cases kmax s
  · cases e.symm.trans e'
    exact ⟨hframe, hidx⟩
  · cases e.symm.trans e'
    exact ⟨(frameOpen_iff_completeFrame?_eq_none _).mpr hf, hidx⟩
  · exact execCommand_keeps_sound (s := { s with frame := [], commands := rest }) ⟨rfl, hidx⟩ (e'.symm.trans e)

theorem stepWith_keeps_seeded {kmax : Nat} {s t : State} (hs : s.seeded = true) (e : stepWith kmax s = .next t) :
    t.seeded = true := by
  obtain ⟨-, e'⟩ | ⟨w, rest, -, -, e'⟩ | ⟨w, rest, h, ops, -, -, e'⟩ := stepWith_cases kmax s
  · cases e.symm.trans e'
    exact hs
  · cases e.symm.trans e'
    exact hs
  · obtain ht | ⟨ht, -⟩ := execCommand_seeds_or_keeps (e'.symm.trans e)
    · exact ht
    · exact ht.trans hs

/-- A step that sets the flag completes a frame that decodes to a command (R12): a refused one sets nothing (R88). -/
theorem stepWith_sets_seeded {kmax : Nat} {s t : State} (hs : s.seeded = false) (e : stepWith kmax s = .next t)
    (ht : t.seeded = true) :
    ∃ w rest h ops i, s.commands = w :: rest ∧ completeFrame? (s.frame ++ [w]) = some (h, ops) ∧
      decodeFrame kmax h ops = .instr i := by
  obtain ⟨-, e'⟩ | ⟨w, rest, -, -, e'⟩ | ⟨w, rest, h, ops, hc, hf, e'⟩ := stepWith_cases kmax s
  · cases e.symm.trans e'
    simp [hs] at ht
  · cases e.symm.trans e'
    simp [hs] at ht
  · cases hd : decodeFrame kmax h ops with
    | instr i => exact ⟨w, rest, h, ops, i, hc, hf, hd⟩
    | bad cause header =>
      rw [hd] at e'
      cases e.symm.trans (e'.trans (raise_eq cause header _))
      simp [hs] at ht

/-! ### The events -/

@[simp] theorem applyEvent_send (kmax : Nat) (w : Word) (s : State) :
    applyEvent kmax (.send w) s = hostSend [w] s := rfl

@[simp] theorem applyEvent_take (kmax : Nat) (s : State) :
    applyEvent kmax .take s = { s with responses := s.responses.tail } := by
  cases hr : s.responses with
  | nil =>
    simp only [applyEvent, hostTake, hr, List.tail_nil]
    rw [← hr]
    rfl
  | cons w rest => simp [applyEvent, hostTake, hr]

@[simp] theorem applyEvent_reset (kmax : Nat) (m : StateVector) (s : State) :
    applyEvent kmax (.reset m) s = resetEvent m s := rfl

/-- The state after a tick is the one the step answers. -/
theorem stepWith_eq_next_tick (kmax : Nat) (s : State) : stepWith kmax s = .next (applyEvent kmax .tick s) := by
  obtain ⟨t, e⟩ := stepWith_completes kmax s
  simp [applyEvent, e]

/-- An event at index `k` reaches the state there only (R18). -/
theorem System.getElem?_applyAt (kmax k : Nat) (e : Event) (sys : System) (j : Nat) :
    (System.applyAt kmax k e sys)[j]? = if k = j then (sys[j]?).map (applyEvent kmax e) else sys[j]? := by
  rw [System.applyAt, List.getElem?_modify]
  split <;> simp

end Sys2Proof.Machine

/-! SUPPORT. The words of `MT` before the first seeding (R19): every seeding overwrites them all before it reads one, so
two states that differ in them only stay so, and are equal once seeded. -/

namespace Sys2Proof.Machine

theorem scalarVector_forgets (seed : Word) (mt mt' : StateVector) : scalarVector seed mt = scalarVector seed mt' :=
  stateVector_ext fun k => by rw [readWord_scalarVector, readWord_scalarVector]

theorem keyVector_forgets (key : List Word) (nonempty : 0 < key.length) (mt mt' : StateVector) :
    keyVector key nonempty mt = keyVector key nonempty mt' := by
  rw [keyVector, scalarVector_forgets keyStartSeed mt mt', keyVector]

/-- Two states that agree but for the words of `MT` of an engine not yet seeded. -/
def SameButUnseededWords (s s' : State) : Prop :=
  ∃ m, s' = { s with mt := m } ∧ (s.seeded = true → m = s.mt)

theorem SameButUnseededWords.refl (s : State) : SameButUnseededWords s s := ⟨s.mt, rfl, fun _ => rfl⟩

theorem SameButUnseededWords.of_unseeded (s : State) (m : StateVector) (hs : s.seeded = false) :
    SameButUnseededWords s { s with mt := m } :=
  ⟨m, rfl, fun h => by simp [hs] at h⟩

theorem SameButUnseededWords.eq_of_seeded {s s' : State} (h : SameButUnseededWords s s') (hs : s.seeded = true) :
    s' = s := by
  obtain ⟨m, rfl, hm⟩ := h
  rw [hm hs]

/-- Both outcomes are next states, the same but for unseeded words. -/
def NextSameButUnseededWords (o o' : Host.Outcome State Fault Refusal) : Prop :=
  ∃ t t', o = .next t ∧ o' = .next t' ∧ SameButUnseededWords t t'

/-- The first draw of a never-seeded engine reads no word it held before (R65). -/
theorem draw_unseeded_forgets {s : State} (hs : s.seeded = false) (m : StateVector) :
    draw { s with mt := m } = draw s := by
  rw [draw_never hs, draw_never (s := { s with mt := m }) hs]
  simp only [initScalar, scalarVector_forgets defaultSeed m s.mt]

theorem execCommand_unseeded_words (c : Command) {s : State} (hs : s.seeded = false) (m : StateVector) :
    NextSameButUnseededWords (execCommand c s) (execCommand c { s with mt := m }) := by
  cases c with
  | bad cause h => exact ⟨_, _, rfl, rfl, .of_unseeded (respond (.refused cause) h s) m hs⟩
  | instr i =>
    cases i with
    | seeds seed =>
      refine ⟨_, _, execSeeds_eq seed s, execSeeds_eq seed { s with mt := m }, ?_⟩
      rw [scalarVector_forgets seed m s.mt]
      exact .refl _
    | seedk key =>
      by_cases hkey : 0 < key.length
      · refine ⟨_, _, execSeedk_eq hkey s, execSeedk_eq hkey { s with mt := m }, ?_⟩
        rw [keyVector_forgets key hkey m s.mt]
        exact .refl _
      · exact ⟨_, _, dif_neg hkey, dif_neg hkey,
          .of_unseeded (respond (.refused .badLength) (header opcSeedk 0) s) m hs⟩
    | next =>
      refine ⟨_, _, exec_next s, exec_next { s with mt := m }, ?_⟩
      rw [draw_unseeded_forgets hs m]
      exact .refl _

theorem stepWith_unseeded_words (kmax : Nat) {s : State} (hs : s.seeded = false) (m : StateVector) :
    NextSameButUnseededWords (stepWith kmax s) (stepWith kmax { s with mt := m }) := by
  obtain ⟨hc, e⟩ | ⟨w, rest, hc, hf, e⟩ | ⟨w, rest, h, ops, hc, hf, e⟩ := stepWith_cases kmax s
  · exact ⟨_, _, e, stepWith_of_no_word kmax hc, .of_unseeded s m hs⟩
  · exact ⟨_, _, e, stepWith_of_incomplete kmax hc hf,
      .of_unseeded { s with frame := s.frame ++ [w], commands := rest } m hs⟩
  · rw [e, stepWith_of_complete kmax (s := { s with mt := m }) hc hf]
    exact execCommand_unseeded_words _ (s := { s with frame := [], commands := rest }) hs m

theorem stepWith_sameButUnseededWords (kmax : Nat) {s s' : State} (h : SameButUnseededWords s s') :
    NextSameButUnseededWords (stepWith kmax s) (stepWith kmax s') := by
  cases hs : s.seeded with
  | false =>
    obtain ⟨m, rfl, -⟩ := h
    exact stepWith_unseeded_words kmax hs m
  | true =>
    obtain ⟨t, e⟩ := stepWith_completes kmax s
    exact ⟨t, t, e, h.eq_of_seeded hs ▸ e, .refl t⟩

theorem runWith_sameButUnseededWords (kmax n : Nat) {s s' : State} (h : SameButUnseededWords s s') :
    NextSameButUnseededWords (runWith kmax n s) (runWith kmax n s') := by
  induction n generalizing s s' with
  | zero => exact ⟨s, s', rfl, rfl, h⟩
  | succ n ih =>
    obtain ⟨t, t', e, e', ht⟩ := stepWith_sameButUnseededWords kmax h
    simpa only [runWith, e, e'] using ih ht

end Sys2Proof.Machine

/-! SUPPORT. The scalar seeding as the statements word it, and the predicates EXHAUSTED and READY (R13, R45). -/

namespace Sys2Proof.Machine

open Sys2Proof.Rules

theorem scalarSeeded_scalarVector (seed : Word) (mt : StateVector) : ScalarSeeded seed (scalarVector seed mt) := by
  refine ⟨readWord_scalarVector seed mt 0, fun n => ?_⟩
  rw [readWord_scalarVector, readWord_scalarVector]
  rfl

/-- The cursor never stands beyond 624 (R11), so EXHAUSTED asks for 624 itself (R13). -/
theorem exhausted_iff (s : State) : exhausted s = true ↔ s.seeded = false ∨ s.idx = 624 := by
  have hidx : 624 ≤ s.idx.val ↔ s.idx = 624 := by
    rw [Fin.ext_iff]
    show 624 ≤ s.idx.val ↔ s.idx.val = 624
    omega
  simp [exhausted, hidx]

theorem ready_iff (s : State) : ready s = true ↔ s.seeded = true ∧ s.idx.val < 624 := by
  simp [ready, exhausted]

end Sys2Proof.Machine

/-! The statements of 10_state.md. -/

namespace Sys2Proof.Proofs

open Sys2Proof.Machine

/-- Settles O31: a stored word leaves FRAME open because it completed no frame, an executed frame leaves FRAME empty and
the flag set or the cursor where it was. -/
theorem stepKeepsSound : Obligations.StepKeepsSound :=
  fun _ _ _ hs e => stepWith_keeps_sound hs e

/-- Settles O11, with the response of `execCommand_streams` as the new words. -/
theorem responsesNeverFeedBack : Obligations.ResponsesNeverFeedBack := by
  intro kmax s older
  obtain ⟨hc, e⟩ | ⟨w, rest, hc, hf, e⟩ | ⟨w, rest, h, ops, hc, hf, e⟩ := stepWith_cases kmax s
  · refine ⟨s, [], ?_, ?_⟩
    · simpa using e
    · simpa using stepWith_of_no_word kmax (s := { s with responses := older }) hc
  · refine ⟨{ s with frame := s.frame ++ [w], commands := rest }, [], ?_, ?_⟩
    · simpa using e
    · simpa using stepWith_of_incomplete kmax (s := { s with responses := older }) hc hf
  · obtain ⟨t, status, data, et⟩ := execCommand_streams (decodeFrame kmax h ops) s
    refine ⟨{ t with frame := [], commands := rest }, [status, data], ?_, ?_⟩
    · exact e.trans (et [] rest s.responses)
    · exact (stepWith_of_complete kmax (s := { s with responses := older }) hc hf).trans (et [] rest older)

/-- Settles O26: the host's moves keep the flag, and a step keeps it when set and sets it by a command only. -/
theorem onlyResetClearsSeeded : Obligations.OnlyResetClearsSeeded := by
  intro kmax e s
  cases e with
  | send w => simp +contextual
  | take => simp +contextual
  | reset m => simp
  | tick =>
    have hstep := stepWith_eq_next_tick kmax s
    constructor
    · intro hs ht
      simp [stepWith_keeps_seeded hs hstep] at ht
    · intro hs ht
      exact ⟨rfl, stepWith_sets_seeded hs hstep ht⟩

/-- Settles O32: the host's moves touch the streams only, a reset leaves what `State.reset` holds, and a tick is a step. -/
theorem eventsKeepSound : Obligations.EventsKeepSound := by
  intro kmax e s hs
  cases e with
  | send w => exact hs
  | take =>
    rw [applyEvent_take]
    exact hs
  | reset m => exact ⟨rfl, fun _ => rfl⟩
  | tick => exact stepWith_keeps_sound hs (stepWith_eq_next_tick kmax s)

/-- Settles O36, by the relation `SameButUnseededWords`, which every step keeps. -/
theorem unseededWordsAreUnobservable : Obligations.UnseededWordsAreUnobservable := by
  intro kmax n s other hs _
  obtain ⟨t, t', e, e', m, rfl, hm⟩ := runWith_sameButUnseededWords kmax n (.of_unseeded s other hs)
  exact ⟨t, m, e, e', hm⟩

/-- Settles O37, by induction on the list of events: an event elsewhere leaves state `j` alone. -/
theorem instancesAreIndependent : Obligations.InstancesAreIndependent := by
  intro kmax sys events j
  induction events generalizing sys with
  | nil => simp
  | cons event events ih =>
    obtain ⟨k, e⟩ := event
    rw [List.foldl_cons, ih, System.getElem?_applyAt]
    by_cases hk : k = j
    · simp [hk, Function.comp_def]
    · simp [hk]

/-- Settles O24: the three cases of a draw, the exhausted engine being split on the flag. -/
theorem twistRunsExactlyWhenExhausted : Obligations.TwistRunsExactlyWhenExhausted := by
  refine ⟨exhausted_iff, fun s hr => ?_, fun s hx => ?_⟩
  · obtain ⟨hs, hidx⟩ := (ready_iff s).mp hr
    have hd := draw_ready hs ⟨s.idx.val, hidx⟩ rfl
    exact ⟨_, exec_next s, by rw [hd], by rw [hd]; rfl⟩
  · cases hs : s.seeded with
    | true =>
      have hidx : s.idx = 624 := by simpa [hs] using (exhausted_iff s).mp hx
      have hd := draw_exhausted hs (by rw [hidx]; decide)
      exact ⟨_, s.mt, exec_next s, by rw [hd], by rw [hd], fun _ => rfl, by simp⟩
    | false =>
      have hd := (draw_never hs).trans (draw_exhausted (initScalar_seeded _ _) (by simp))
      exact ⟨_, scalarVector defaultSeed s.mt, exec_next s, by rw [hd]; rfl, by rw [hd], by simp,
        fun _ => scalarSeeded_scalarVector defaultSeed s.mt⟩

/-- Settles O30: a draw leaves the cursor behind the word it took, a seeding at 624. -/
theorem cursorAfterEachCommand : Obligations.CursorAfterEachCommand := by
  refine ⟨fun s t e => ?_, fun seed s t e => ?_, fun key s t hkey e => ?_⟩
  · cases e.symm.trans (exec_next s)
    exact ⟨draw_idx_pos s, Nat.le_of_lt_succ (draw s).2.idx.isLt⟩
  · cases e.symm.trans (execSeeds_eq seed s)
    rfl
  · cases e.symm.trans (execSeedk_eq hkey s)
    rfl

/-- Settles O34: the never-seeded engine is exhausted, and `Live` speaks of seeded engines only. -/
theorem resetState : Obligations.ResetState :=
  ⟨reset_seeded, reset_idx, reset_frame, reset_responses, (exhausted_iff _).mpr (.inl reset_seeded),
    ⟨rfl, fun _ => reset_idx⟩, fun h => by simp at h⟩

end Sys2Proof.Proofs

/-! SUPPORT. Decoding and encoding: the header's fields as numbers, one equation for each verdict of the decoder, and the two
directions of the round trip (R31, R40, R42). -/

namespace Sys2Proof

/-! ### The header -/

theorem headerOpc_eq_iff (h : Word) (opc : BitVec 8) : headerOpc h = opc ↔ h.toNat / 2 ^ 24 = opc.toNat := by
  rw [← BitVec.toNat_inj, headerOpc_toNat]

theorem headerRsv_eq_zero_iff (h : Word) : headerRsv h = 0#8 ↔ h.toNat / 2 ^ 16 % 2 ^ 8 = 0 := by
  rw [← BitVec.toNat_inj, headerRsv_toNat]
  rfl

/-- A header without reserved bits is the one the encoder builds from its fields (R31). -/
theorem eq_header_of_rsv_zero {h : Word} (hrsv : headerRsv h = 0#8) : h = header (headerOpc h) (headerLen h) := by
  rw [headerRsv_eq_zero_iff] at hrsv
  apply BitVec.eq_of_toNat_eq
  rw [header_toNat, headerOpc_toNat, headerLen_eq]
  omega

theorem header_opcSeedk {n : Nat} (hn : n ≤ 65535) : header opcSeedk n = 0x02000000#32 ||| BitVec.ofNat 32 n := by
  have hor : 2 ^ 24 * 2 + n = 2 ^ 24 * 2 ||| n := Nat.two_pow_add_eq_or_of_lt (by omega) 2
  apply BitVec.eq_of_toNat_eq
  rw [header_toNat, BitVec.toNat_or, BitVec.toNat_ofNat, BitVec.toNat_ofNat, Nat.mod_eq_of_lt (a := n) (by omega),
    Nat.mod_eq_of_lt (a := n) (by omega)]
  exact hor

/-! ### The encodings (R34 to R36, R42) -/

theorem encode_seeds (seed : Word) : encode (.seeds seed) = [0x01000001#32, seed] := by
  have h : header opcSeeds 1 = 0x01000001#32 := by decide
  rw [encode, h]

theorem encode_seedk {key : List Word} (hkey : key.length ≤ 65535) :
    encode (.seedk key) = (0x02000000#32 ||| BitVec.ofNat 32 key.length) :: key := by
  rw [encode, header_opcSeedk hkey]

theorem encode_next : encode .next = [0x03000000#32] := by decide

theorem wellFormed_seedk_iff (kmax : Nat) (key : List Word) :
    wellFormed kmax (.seedk key) = true ↔ 1 ≤ key.length ∧ key.length ≤ kmax := by
  simp [wellFormed]

/-! ### The verdicts of the decoder, one for each check of R40 -/

section Verdicts

variable {kmax : Nat} {h : Word} {ops : List Word}

theorem decodeFrame_illegalOpcode (hseeds : headerOpc h ≠ opcSeeds) (hseedk : headerOpc h ≠ opcSeedk)
    (hnext : headerOpc h ≠ opcNext) : decodeFrame kmax h ops = .bad .illegalOpcode h := by
  simp [decodeFrame, hseeds, hseedk, hnext]

theorem decodeFrame_reservedNonzero
    (hopc : headerOpc h = opcSeeds ∨ headerOpc h = opcSeedk ∨ headerOpc h = opcNext) (hrsv : headerRsv h ≠ 0#8) :
    decodeFrame kmax h ops = .bad .reservedNonzero h := by
  obtain e | e | e := hopc <;> simp [decodeFrame, e, hrsv]

theorem decodeFrame_seeds_badLength (hopc : headerOpc h = opcSeeds) (hrsv : headerRsv h = 0#8) (hlen : headerLen h ≠ 1) :
    decodeFrame kmax h ops = .bad .badLength h := by
  simp [decodeFrame, hopc, hrsv, hlen]

theorem decodeFrame_seeds {seed : Word} (hopc : headerOpc h = opcSeeds) (hrsv : headerRsv h = 0#8)
    (hlen : headerLen h = 1) : decodeFrame kmax h (seed :: ops) = .instr (.seeds seed) := by
  simp [decodeFrame, hopc, hrsv, hlen, show opcSeeds ≠ opcSeedk by decide, show opcSeeds ≠ opcNext by decide]

theorem decodeFrame_seedk_badLength (hopc : headerOpc h = opcSeedk) (hrsv : headerRsv h = 0#8)
    (hlen : headerLen h = 0 ∨ kmax < headerLen h) : decodeFrame kmax h ops = .bad .badLength h := by
  simp [decodeFrame, hopc, hrsv, hlen, show opcSeedk ≠ opcSeeds by decide]

theorem decodeFrame_seedk (hopc : headerOpc h = opcSeedk) (hrsv : headerRsv h = 0#8)
    (hlen : 1 ≤ headerLen h ∧ headerLen h ≤ kmax) :
    decodeFrame kmax h ops = .instr (.seedk (ops.take (headerLen h))) := by
  have hlegal : ¬ (headerLen h = 0 ∨ kmax < headerLen h) := by omega
  simp [decodeFrame, hopc, hrsv, hlegal, show opcSeedk ≠ opcSeeds by decide, show opcSeedk ≠ opcNext by decide]

theorem decodeFrame_next_badLength (hopc : headerOpc h = opcNext) (hrsv : headerRsv h = 0#8) (hlen : headerLen h ≠ 0) :
    decodeFrame kmax h ops = .bad .badLength h := by
  simp [decodeFrame, hopc, hrsv, hlen, show opcNext ≠ opcSeeds by decide, show opcNext ≠ opcSeedk by decide]

theorem decodeFrame_next (hopc : headerOpc h = opcNext) (hrsv : headerRsv h = 0#8) (hlen : headerLen h = 0) :
    decodeFrame kmax h ops = .instr .next := by
  simp [decodeFrame, hopc, hrsv, hlen, show opcNext ≠ opcSeeds by decide, show opcNext ≠ opcSeedk by decide]

/-! ### The round trip (R42) -/

/-- The words of a well-formed command are a whole frame that decodes to it. -/
theorem decodeFrame_encode {i : Instr} (hk : kmax ≤ 65535) (wf : wellFormed kmax i = true) :
    ∃ h ops, encode i = h :: ops ∧ ops.length = headerLen h ∧ decodeFrame kmax h ops = .instr i := by
  cases i with
  | seeds seed =>
    have hlen : headerLen (header opcSeeds 1) = 1 := headerLen_header _ (by decide)
    exact ⟨_, _, rfl, hlen.symm, decodeFrame_seeds (headerOpc_header _ _) (headerRsv_header _ _) hlen⟩
  | seedk key =>
    rw [wellFormed_seedk_iff] at wf
    have hlen : headerLen (header opcSeedk key.length) = key.length := headerLen_header _ (by omega)
    refine ⟨_, _, rfl, hlen.symm, ?_⟩
    rw [decodeFrame_seedk (headerOpc_header _ _) (headerRsv_header _ _) (by rwa [hlen]), hlen, List.take_length]
  | next =>
    have hlen : headerLen (header opcNext 0) = 0 := headerLen_header _ (by decide)
    exact ⟨_, _, rfl, hlen.symm, decodeFrame_next (headerOpc_header _ _) (headerRsv_header _ _) hlen⟩

/-- A whole frame is refused with its own header, or it is the encoding of the well-formed command it decodes to. -/
theorem decodeFrame_cases (kmax : Nat) (hlen : ops.length = headerLen h) :
    (∃ cause, decodeFrame kmax h ops = .bad cause h) ∨
    (∃ i, decodeFrame kmax h ops = .instr i ∧ wellFormed kmax i = true ∧ h :: ops = encode i) := by
  by_cases hopc : headerOpc h = opcSeeds ∨ headerOpc h = opcSeedk ∨ headerOpc h = opcNext
  case neg =>
    obtain ⟨hseeds, hseedk, hnext⟩ : headerOpc h ≠ opcSeeds ∧ headerOpc h ≠ opcSeedk ∧ headerOpc h ≠ opcNext := by
      simpa only [not_or] using hopc
    exact .inl ⟨_, decodeFrame_illegalOpcode hseeds hseedk hnext⟩
  by_cases hrsv : headerRsv h = 0#8
  case neg => exact .inl ⟨_, decodeFrame_reservedNonzero hopc hrsv⟩
  have hh := eq_header_of_rsv_zero hrsv
  obtain hopc | hopc | hopc := hopc
  · by_cases h1 : headerLen h = 1
    · obtain ⟨seed, rfl⟩ := List.length_eq_one_iff.mp (hlen.trans h1)
      refine .inr ⟨_, decodeFrame_seeds hopc hrsv h1, rfl, ?_⟩
      rw [encode, ← hopc, ← h1, ← hh]
    · exact .inl ⟨_, decodeFrame_seeds_badLength hopc hrsv h1⟩
  · by_cases hl : 1 ≤ headerLen h ∧ headerLen h ≤ kmax
    · refine .inr ⟨_, decodeFrame_seedk hopc hrsv hl, ?_⟩
      rw [← hlen] at hl hh ⊢
      rw [List.take_length, wellFormed_seedk_iff, encode, ← hopc, ← hh]
      exact ⟨hl, rfl⟩
    · exact .inl ⟨_, decodeFrame_seedk_badLength hopc hrsv (by omega)⟩
  · by_cases h0 : headerLen h = 0
    · obtain rfl := List.eq_nil_of_length_eq_zero (hlen.trans h0)
      refine .inr ⟨_, decodeFrame_next hopc hrsv h0, rfl, ?_⟩
      rw [encode, ← hopc, ← h0, ← hh]
    · exact .inl ⟨_, decodeFrame_next_badLength hopc hrsv h0⟩

/-- A stream that begins with a whole frame decodes to that frame's command and leaves the words after it (R32). -/
theorem decode_frame_append (kmax : Nat) (hlen : ops.length = headerLen h) (rest : List Word) :
    decode kmax (h :: (ops ++ rest)) = some (decodeFrame kmax h ops, rest) := by
  simp [decode, ← hlen]

end Verdicts

end Sys2Proof

/-! SUPPORT. Runs of the word level: the words of an incomplete frame are stored one a step, and the last word of a whole
frame executes it (R30, R41; log entry 3). -/

namespace Sys2Proof.Machine

/-! ### FRAME while it fills -/

theorem completeFrame?_of_length_lt {h : Word} {ops : List Word} (hlen : ops.length < headerLen h) :
    completeFrame? (h :: ops) = none :=
  (completeFrame?_eq_none_iff _).mpr (.inr ⟨h, ops, rfl, hlen⟩)

theorem completeFrame?_of_length_eq {h : Word} {ops : List Word} (hlen : ops.length = headerLen h) :
    completeFrame? (h :: ops) = some (h, ops) :=
  (completeFrame?_eq_some_iff _ _ _).mpr ⟨rfl, hlen.ge⟩

/-- What begins an incomplete frame is incomplete. -/
theorem completeFrame?_eq_none_of_append {xs ys : List Word} (e : completeFrame? (xs ++ ys) = none) :
    completeFrame? xs = none := by
  cases xs with
  | nil => rfl
  | cons h ops =>
    simp only [List.cons_append, completeFrame?_eq_none_iff, List.cons.injEq, reduceCtorEq, false_or] at e
    obtain ⟨_, _, ⟨rfl, rfl⟩, hlt⟩ := e
    rw [List.length_append] at hlt
    exact completeFrame?_of_length_lt (by omega)

/-- All words of a whole frame but the last are an incomplete frame. -/
theorem completeFrame?_eq_none_of_concat {h last : Word} {ops init : List Word} (e : h :: ops = init ++ [last])
    (hlen : ops.length = headerLen h) : completeFrame? init = none := by
  cases init with
  | nil => rfl
  | cons h' ops' =>
    rw [List.cons_append] at e
    obtain ⟨rfl, rfl⟩ := List.cons.inj e
    rw [List.length_append, List.length_singleton] at hlen
    exact completeFrame?_of_length_lt (by omega)

/-! ### Runs -/

theorem runWith_one (kmax : Nat) (s : State) : runWith kmax 1 s = stepWith kmax s := by
  obtain ⟨t, e⟩ := stepWith_completes kmax s
  simp [runWith, e]

/-- A block with no word to take waits for as long as it runs (R41, R108; log entry 4). -/
theorem runWith_of_no_word (kmax n : Nat) {s : State} (hc : s.commands = []) : runWith kmax n s = .next s := by
  induction n with
  | zero => rfl
  | succ n ih => rw [runWith, stepWith_of_no_word kmax hc]; exact ih

/-- As long as the frame stays incomplete, a run moves one word a step from the command stream to FRAME (R41). -/
theorem runWith_stores (kmax n : Nat) {ws rest : List Word} {s : State} (hc : s.commands = ws ++ rest)
    (hf : completeFrame? (s.frame ++ ws) = none) :
    runWith kmax (ws.length + n) s = runWith kmax n { s with frame := s.frame ++ ws, commands := rest } := by
  induction ws generalizing s with
  | nil =>
    obtain rfl : rest = s.commands := hc.symm
    simp
  | cons w ws ih =>
    rw [List.append_cons] at hf
    rw [List.length_cons, Nat.add_right_comm, runWith,
      stepWith_of_incomplete kmax hc (completeFrame?_eq_none_of_append hf)]
    refine (ih (s := { s with frame := s.frame ++ [w], commands := ws ++ rest }) rfl hf).trans ?_
    simp

/-- From an empty FRAME, one step a word runs the whole frame at the head of the stream (R30, R41). -/
theorem runWith_frame (kmax : Nat) {s : State} {h : Word} {ops rest : List Word} (hs : s.frame = [])
    (hc : s.commands = h :: (ops ++ rest)) (hlen : ops.length = headerLen h) :
    runWith kmax (h :: ops).length s = execCommand (decodeFrame kmax h ops) { s with commands := rest } := by
  obtain ⟨init, last, e⟩ : ∃ init last, h :: ops = init ++ [last] :=
    ⟨_, _, (List.dropLast_append_getLast (List.cons_ne_nil h ops)).symm⟩
  have hinit : completeFrame? (s.frame ++ init) = none := by
    rw [hs]
    exact completeFrame?_eq_none_of_concat e hlen
  have hcommands : s.commands = init ++ (last :: rest) := by
    rw [hc, ← List.cons_append, e, List.append_assoc, List.singleton_append]
  have hlast : completeFrame? (s.frame ++ init ++ [last]) = some (h, ops) := by
    rw [hs, List.nil_append, ← e]
    exact completeFrame?_of_length_eq hlen
  rw [e, List.length_append, List.length_singleton, runWith_stores kmax 1 hcommands hinit, runWith_one,
    stepWith_of_complete kmax rfl hlast, ← hs]

/-! ### What a command answers -/

@[simp] theorem draw_frame (s : State) : (draw s).2.frame = s.frame :=
  congrArg (fun d => d.2.frame) (draw_streams s s.frame s.commands s.responses)

@[simp] theorem draw_commands (s : State) : (draw s).2.commands = s.commands :=
  congrArg (fun d => d.2.commands) (draw_streams s s.frame s.commands s.responses)

@[simp] theorem draw_responses (s : State) : (draw s).2.responses = s.responses :=
  congrArg (fun d => d.2.responses) (draw_streams s s.frame s.commands s.responses)

/-- A well-formed command completes with STATUS 0 (R46, R55, R66) and leaves FRAME and the command stream alone. -/
theorem exec_of_wellFormed {kmax : Nat} {i : Instr} (wf : wellFormed kmax i = true) (s : State) :
    ∃ t data, exec i s = .next t ∧ t.frame = s.frame ∧ t.commands = s.commands ∧
      t.responses = s.responses ++ [0#32, data] := by
  cases i with
  | seeds seed => exact ⟨_, _, execSeeds_eq seed s, rfl, rfl, rfl⟩
  | seedk key =>
    obtain ⟨hkey, -⟩ := (wellFormed_seedk_iff kmax key).mp wf
    exact ⟨_, _, execSeedk_eq hkey s, rfl, rfl, rfl⟩
  | next => exact ⟨_, _, exec_next s, draw_frame s, draw_commands s, by rw [draw_responses]⟩

theorem statusWord_refused_cases (cause : Cause) :
    statusWord (.refused cause) = 1#32 ∨ statusWord (.refused cause) = 2#32 ∨ statusWord (.refused cause) = 3#32 := by
  cases cause <;> simp

end Sys2Proof.Machine

/-! The statements of 30_encoding.md. -/

namespace Sys2Proof.Proofs

open Sys2Proof.Machine

/-- Settles O1: a frame that is not refused is an encoding (`decodeFrame_cases`), and an encoding is a frame that decodes to
its command (`decodeFrame_encode`). -/
theorem encodeThenDecodeIsIdentity : Obligations.EncodeThenDecodeIsIdentity := by
  rintro kmax ⟨-, hk⟩
  refine ⟨encode_seeds, fun key wf => ?_, encode_next, fun i wf rest => ?_, fun h ops i hlen e => ?_⟩
  · obtain ⟨-, hkey⟩ := (wellFormed_seedk_iff kmax key).mp wf
    exact encode_seedk (hkey.trans hk)
  · obtain ⟨h, ops, he, hlen, hd⟩ := decodeFrame_encode hk wf
    rw [he, List.cons_append, decode_frame_append kmax hlen, hd]
  · obtain ⟨cause, hd⟩ | ⟨i', hd, wf, he⟩ := decodeFrame_cases kmax hlen
    · cases e.symm.trans hd
    · cases e.symm.trans hd
      exact ⟨wf, he⟩

/-- Settles O2: each clause is one verdict of the decoder, the header's fields read as numbers. -/
theorem decoderChecksInOrder : Obligations.DecoderChecksInOrder := by
  refine ⟨fun cause h s => by cases cause <;> simp [execCommand, raise_eq], ?_⟩
  rintro kmax h ops opc rsv len rfl rfl rfl hlen
  have hseeds : headerOpc h = opcSeeds ↔ h.toNat / 2 ^ 24 = 1 := headerOpc_eq_iff h opcSeeds
  have hseedk : headerOpc h = opcSeedk ↔ h.toNat / 2 ^ 24 = 2 := headerOpc_eq_iff h opcSeedk
  have hnext : headerOpc h = opcNext ↔ h.toNat / 2 ^ 24 = 3 := headerOpc_eq_iff h opcNext
  rw [← hseeds, ← hseedk, ← hnext, ← headerLen_eq, ← headerRsv_eq_zero_iff]
  rw [← headerLen_eq] at hlen
  refine ⟨?_, ?_, ?_, ?_, ?_, ?_, ?_, ?_⟩
  · rintro ⟨h1, h2, h3⟩
    exact decodeFrame_illegalOpcode (mt hseeds.mp h1) (mt hseedk.mp h2) (mt hnext.mp h3)
  · rintro ⟨hopc, hrsv⟩
    exact decodeFrame_reservedNonzero hopc (mt (headerRsv_eq_zero_iff h).mp hrsv)
  · rintro ⟨hopc, hrsv, h1⟩
    exact decodeFrame_seeds_badLength hopc hrsv h1
  · rintro ⟨hopc, hrsv, hbad⟩
    exact decodeFrame_seedk_badLength hopc hrsv hbad
  · rintro ⟨hopc, hrsv, h0⟩
    exact decodeFrame_next_badLength hopc hrsv h0
  · rintro ⟨hopc, hrsv, h1⟩
    obtain ⟨seed, rfl⟩ := List.length_eq_one_iff.mp (hlen.trans h1)
    exact ⟨seed, rfl, decodeFrame_seeds hopc hrsv h1⟩
  · rintro ⟨hopc, hrsv, hl⟩
    rw [decodeFrame_seedk hopc hrsv hl, ← hlen, List.take_length]
  · rintro ⟨hopc, hrsv, h0⟩
    exact decodeFrame_next hopc hrsv h0

/-- Settles O6: the step's two waiting cases, and the run that stores an incomplete frame and then waits. -/
theorem incompleteFrameWaits : Obligations.IncompleteFrameWaits := by
  refine ⟨fun kmax s w rest h ops hc hf hlt => ?_, fun kmax s hc => stepWith_of_no_word kmax hc,
    fun kmax s h ops hs hc hlt => ⟨⟨rfl, List.cons_ne_nil h ops⟩, fun n hn => ?_⟩⟩
  · exact stepWith_of_incomplete kmax hc (hf ▸ completeFrame?_of_length_lt hlt)
  · obtain ⟨d, rfl⟩ := Nat.exists_eq_add_of_lt hn
    have hstore := runWith_stores kmax d (ws := h :: ops) (rest := []) (s := s) (by simpa using hc)
      (by simpa [hs] using completeFrame?_of_length_lt hlt)
    rw [Nat.add_right_comm]
    refine hstore.trans ((runWith_of_no_word kmax d rfl).trans ?_)
    rw [hs, List.nil_append]

/-- Settles O7, by `runWith_frame` for the word level and `decode_frame_append` for the command level. -/
theorem wordLevelAgreesWithCommandLevel : Obligations.WordLevelAgreesWithCommandLevel := by
  intro kmax s h ops rest hs hc hlen
  have hrun := runWith_frame kmax hs hc hlen
  rw [List.length_cons, hlen, Nat.add_comm] at hrun
  refine ⟨hrun, hrun.trans ?_⟩
  rw [commandStep, hc, decode_frame_append kmax hlen]

/-- Settles O10: a refused frame answers its cause and its header, a legal one STATUS 0 (`exec_of_wellFormed`). -/
theorem oneTwoWordResponsePerFrame : Obligations.OneTwoWordResponsePerFrame := by
  intro kmax s t e
  refine ⟨fun w rest h ops hc hf hlen => ?_, fun w rest h ops hc hf hlt => ?_, fun hc => ?_⟩
  · have hstep := stepWith_of_complete kmax hc (hf ▸ completeFrame?_of_length_eq hlen)
    obtain ⟨cause, hd⟩ | ⟨i, hd, wf, -⟩ := decodeFrame_cases kmax hlen
    · rw [hd] at hstep
      cases e.symm.trans hstep
      exact ⟨rfl, _, h, rfl, .inr (statusWord_refused_cases cause), fun _ => ⟨rfl, rfl, rfl, rfl⟩⟩
    · rw [hd] at hstep
      obtain ⟨u, data, hu, hframe, -, hresp⟩ := exec_of_wellFormed wf { s with frame := [], commands := rest }
      cases e.symm.trans (hstep.trans hu)
      exact ⟨hframe, 0#32, data, hresp, .inl rfl, fun hne => absurd rfl hne⟩
  · cases e.symm.trans (stepWith_of_incomplete kmax hc (hf ▸ completeFrame?_of_length_lt hlt))
    rfl
  · cases e.symm.trans (stepWith_of_no_word kmax hc)
    rfl

/-- Settles O38: the encoding is a whole frame at the head of the stream, and its response the only one standing there. -/
theorem hostGetsTheResponse : Obligations.HostGetsTheResponse := by
  rintro kmax i s wf ⟨-, hk⟩ hs hc hr
  obtain ⟨h, ops, he, hlen, hd⟩ := decodeFrame_encode hk wf
  obtain ⟨t, data, ht, -, -, hresp⟩ := exec_of_wellFormed wf s
  rw [hr, List.nil_append] at hresp
  have hrun : runWith kmax (encode i).length (hostSend (encode i) s) = exec i s := by
    have hcommands : (hostSend (h :: ops) s).commands = h :: (ops ++ []) := by simp [hc]
    rw [he, runWith_frame kmax (s := hostSend (h :: ops) s) hs hcommands hlen, hd, ← hc]
    rfl
  refine ⟨t, { t with responses := [data] }, 0#32, data, hrun.trans ht, ht, ?_, rfl, rfl, ?_⟩
  · rw [hostTake, hresp]
  · simp [call, ht, hr, hresp]

/-- Settles O3: the frames are closed words, and SEEDK with KMAX = 624 takes LEN = 624 and refuses 625. -/
theorem sampleWordsDecode : Obligations.SampleWordsDecode := by
  refine ⟨by decide, by decide, by decide, by decide, by decide, by decide, fun ops => ?_, fun ops => ?_⟩
  · exact decodeFrame_seedk (h := 0x02000270#32) (by decide) (by decide) (by decide)
  · exact decodeFrame_seedk_badLength (by decide) (by decide) (by decide)

/-- Settles O4: the frame is complete, so the step executes what it decodes to. -/
theorem stepRunsTheDecodedCommand : Obligations.StepRunsTheDecodedCommand := by
  have hstep : ∀ kmax s w rest h ops i, s.commands = w :: rest → s.frame ++ [w] = h :: ops →
      ops.length = headerLen h → decodeFrame kmax h ops = .instr i →
      stepWith kmax s = exec i { s with frame := [], commands := rest } := by
    intro kmax s w rest h ops i hc hf hlen hd
    rw [stepWith_of_complete kmax hc (hf ▸ completeFrame?_of_length_eq hlen), hd]
    rfl
  exact ⟨hstep, hstep Config.kmax⟩

/-- Settles O29, with the response of `execCommand_streams`. -/
theorem commandsTouchOnlyEngineAndResponses : Obligations.CommandsTouchOnlyEngineAndResponses := by
  intro i s
  obtain ⟨t, status, data, e⟩ := execCommand_streams (.instr i) s
  exact ⟨_, status, data, e s.frame s.commands s.responses, rfl, rfl, rfl⟩

/-- Settles O42: each line stands for encodings, and a legal KMAX is the assembler's bound itself. -/
theorem assemblyLines : Obligations.AssemblyLines := by
  rintro kmax ⟨-, hk⟩
  refine ⟨fun seed => congrArg some (encode_seeds seed), fun key h1 hkey => ?_, fun key hkey => ?_,
    congrArg some encode_next, fun n => ?_, congrArg some (encode_seeds defaultSeed), fun ws => rfl⟩
  · have wf : wellFormed (min kmax 65535) (.seedk key) = true := (wellFormed_seedk_iff _ _).mpr ⟨h1, by omega⟩
    rw [AsmLine.words, if_pos wf, encode_seedk (hkey.trans hk)]
  · have wf : ¬ wellFormed (min kmax 65535) (.seedk key) = true := by
      rw [wellFormed_seedk_iff]
      omega
    rw [AsmLine.words, if_neg wf]
  · rw [AsmLine.words, encode_next, List.flatten_replicate_singleton]

end Sys2Proof.Proofs

/-! SUPPORT. The vector a scalar seeding leaves, as a function of the seed (R47). -/

namespace Sys2Proof.Machine

/-- Word 0 of the seeded vector is the seed itself (R45), so the seed can be read back. -/
@[simp] theorem readWord_scalarVector_zero (seed : Word) (mt : StateVector) :
    readWord (scalarVector seed mt) 0 = seed :=
  readWord_scalarVector seed mt 0

/-- Distinct seeds leave distinct vectors, whatever the vectors held before (R47). -/
theorem scalarVector_seed_injective {seed seed' : Word} {mt mt' : StateVector}
    (e : scalarVector seed mt = scalarVector seed' mt') : seed = seed' := by
  simpa using congrArg (readWord · 0) e

end Sys2Proof.Machine

/-! The statements of 40_seed_scalar.md. -/

namespace Sys2Proof.Proofs

open Sys2Proof.Machine

/-- Settles O12: the state of `execSeeds_eq`, its words as `scalarSeeded_scalarVector` gives them. -/
theorem seedsFollowsTheRecurrence : Obligations.SeedsFollowsTheRecurrence :=
  fun seed s => ⟨_, execSeeds_eq seed s, scalarSeeded_scalarVector seed s.mt, rfl, rfl, rfl, rfl, rfl⟩

/-- Settles O13: every word is overwritten before it is read, word 0 keeps the seed, and the cursor at 624 makes the
first draw twist. -/
theorem scalarSeedingForgetsThePast : Obligations.ScalarSeedingForgetsThePast := by
  refine ⟨fun seed s s' t t' e e' => ?_, fun seed seed' s s' t t' e e' hne => ?_, fun seed s t u e eu => ?_⟩
  · cases e.symm.trans (execSeeds_eq seed s)
    cases e'.symm.trans (execSeeds_eq seed s')
    exact ⟨scalarVector_forgets seed s.mt s'.mt, rfl, rfl⟩
  · cases e.symm.trans (execSeeds_eq seed s)
    cases e'.symm.trans (execSeeds_eq seed' s')
    exact mt scalarVector_seed_injective hne
  · cases e.symm.trans (execSeeds_eq seed s)
    cases eu.symm.trans (exec_next _)
    rw [draw_exhausted rfl le_rfl]
    exact ⟨rfl, rfl, rfl⟩

end Sys2Proof.Proofs

/-! SUPPORT. The two key passes step by step: the position goes round 1..623, and each step is the one the rule of the spec
asks for (R52, R53). -/

namespace Sys2Proof.Machine

open Sys2Proof.Rules

/-! ### The state position -/

/-- A position that every step advances as the key passes do goes round 1..623. -/
theorem position_iterate {α : Type} {step : α → α} {position : α → Nat}
    (hstep : ∀ x, position (step x) = if position x + 1 < 624 then position x + 1 else 1)
    {x : α} (hpos : 1 ≤ position x) (hle : position x ≤ 623) (n : Nat) :
    position (step^[n] x) = 1 + (position x - 1 + n) % 623 := by
  induction n with
  | zero =>
    rw [Function.iterate_zero_apply]
    omega
  | succ n ih =>
    rw [Function.iterate_succ_apply', hstep, ih]
    split <;> omega

theorem firstPassStep_iterate_i (key : List Word) {x : PassState × Fin key.length} (h0 : x.1.i ≠ 0) (n : Nat) :
    ((firstPassStep key)^[n] x).1.i.val = 1 + (x.1.i.val - 1 + n) % 623 :=
  position_iterate (position := fun x : PassState × Fin key.length => x.1.i.val) (firstPassStep_i key)
    (Fin.pos_of_ne_zero h0) (Nat.le_of_lt_succ x.1.i.isLt) n

theorem secondPassStep_iterate_i {p : PassState} (h0 : p.i ≠ 0) (n : Nat) :
    (secondPassStep^[n] p).i.val = 1 + (p.i.val - 1 + n) % 623 :=
  position_iterate (position := fun p : PassState => p.i.val) secondPassStep_i (Fin.pos_of_ne_zero h0)
    (Nat.le_of_lt_succ p.i.isLt) n

theorem secondPassStep_iterate_i_ne_zero {p : PassState} (h0 : p.i ≠ 0) (n : Nat) : (secondPassStep^[n] p).i ≠ 0 := by
  rw [← Fin.val_ne_zero_iff, secondPassStep_iterate_i h0]
  omega

/-- The vector, the position and the key index after `n` steps of the first pass (R52). -/
def firstPassAfter (key : List Word) (nonempty : 0 < key.length) (mt : StateVector) (n : Nat) :
    PassState × Fin key.length :=
  (firstPassStep key)^[n] (⟨mt, 1⟩, ⟨0, nonempty⟩)

theorem firstPassAfter_succ (key : List Word) (nonempty : 0 < key.length) (mt : StateVector) (n : Nat) :
    firstPassAfter key nonempty mt (n + 1) = firstPassStep key (firstPassAfter key nonempty mt n) :=
  Function.iterate_succ_apply' _ _ _

theorem firstPass_eq_firstPassAfter (key : List Word) (nonempty : 0 < key.length) (mt : StateVector) :
    firstPass key nonempty mt = (firstPassAfter key nonempty mt (max 624 key.length)).1 := by
  unfold firstPass firstPassAfter
  rfl

theorem secondPass_eq_iterate (p : PassState) : secondPass p = secondPassStep^[623] p := by
  unfold secondPass
  rfl

/-- The first pass starts at position 1 (R52). -/
theorem firstPassAfter_i (key : List Word) (nonempty : 0 < key.length) (mt : StateVector) (n : Nat) :
    (firstPassAfter key nonempty mt n).1.i.val = 1 + n % 623 := by
  rw [firstPassAfter, firstPassStep_iterate_i key (by decide : (1 : Fin 624) ≠ 0)]
  simp

theorem firstPassAfter_i_ne_zero (key : List Word) (nonempty : 0 < key.length) (mt : StateVector) (n : Nat) :
    (firstPassAfter key nonempty mt n).1.i ≠ 0 := by
  rw [← Fin.val_ne_zero_iff, firstPassAfter_i]
  omega

theorem firstPass_i_ne_zero (key : List Word) (nonempty : 0 < key.length) (mt : StateVector) :
    (firstPass key nonempty mt).i ≠ 0 :=
  firstPass_eq_firstPassAfter key nonempty mt ▸ firstPassAfter_i_ne_zero key nonempty mt _

/-! ### One step as the spec's rule -/

/-- A step that writes `v` to word `i`, and to word 0 at the wrap, as R52 and R53 word it: the target, word 0 as a copy of
word 623 at the wrap, and the words that stay. -/
theorem words_of_pass_step {m m' : StateVector} {i : Fin 624} {v : Word} (h0 : i ≠ 0)
    (hw : ∀ k, readWord m' k = if k = i ∨ (k = 0 ∧ 624 ≤ i.val + 1) then v else readWord m k) :
    readWord m' i = v ∧
    readWord m' 0 = (if 624 ≤ i.val + 1 then readWord m' 623 else readWord m 0) ∧
    ∀ k : Fin 624, k.val ≠ i.val → k ≠ 0 → readWord m' k = readWord m k := by
  have htarget : readWord m' i = v := by rw [hw, if_pos (.inl rfl)]
  refine ⟨htarget, ?_, fun k hk hk0 => ?_⟩
  · by_cases hwrap : 624 ≤ i.val + 1
    · have hi : (623 : Fin 624) = i := Fin.ext (by show 623 = i.val; omega)
      rw [if_pos hwrap, hi, htarget, hw, if_pos (.inr ⟨rfl, hwrap⟩)]
    · rw [if_neg hwrap, hw, if_neg (by simp [h0.symm, hwrap])]
  · rw [hw, if_neg (by simp [Fin.ext_iff, hk, hk0])]

theorem firstPassRule_firstPassStep (key : List Word) {x : PassState × Fin key.length} (h0 : x.1.i ≠ 0) :
    FirstPassRule key x.1.mt (firstPassStep key x).1.mt x.1.i.val x.2.val
      (firstPassStep key x).1.i.val (firstPassStep key x).2.val := by
  obtain ⟨htarget, hzero, hrest⟩ := words_of_pass_step h0 (firstPassStep_word key x h0)
  refine ⟨⟨Fin.pos_of_ne_zero h0, Nat.le_of_lt_succ x.1.i.isLt⟩, x.2.isLt, htarget, hzero, hrest, ?_, ?_⟩
  · simp only [firstPassStep_i, ← Nat.not_le, ite_not]
  · simp only [firstPassStep_j, ← Nat.not_le, ite_not]

theorem secondPassRule_secondPassStep {p : PassState} (h0 : p.i ≠ 0) :
    SecondPassRule p.mt (secondPassStep p).mt p.i.val (secondPassStep p).i.val := by
  obtain ⟨htarget, hzero, hrest⟩ := words_of_pass_step h0 (secondPassStep_word p h0)
  refine ⟨⟨Fin.pos_of_ne_zero h0, Nat.le_of_lt_succ p.i.isLt⟩, htarget, hzero, hrest, ?_⟩
  simp only [secondPassStep_i, ← Nat.not_le, ite_not]

/-- Word 0 of a key seeding is forced (R54). -/
theorem readWord_keyVector_zero (key : List Word) (nonempty : 0 < key.length) (mt : StateVector) :
    readWord (keyVector key nonempty mt) 0 = keyTopWord :=
  readWord_writeWord_self _ _ _

/-- The other words of a key seeding are those the second pass left (R54). -/
theorem readWord_keyVector_of_ne_zero (key : List Word) (nonempty : 0 < key.length) (mt : StateVector) {k : Fin 624}
    (hk : k ≠ 0) :
    readWord (keyVector key nonempty mt) k =
      readWord (secondPassStep^[623] (firstPass key nonempty (scalarVector keyStartSeed mt))).mt k := by
  rw [← secondPass_eq_iterate]
  exact readWord_writeWord_of_ne _ _ hk

end Sys2Proof.Machine

/-! The statements of 41_seed_key.md. -/

namespace Sys2Proof.Proofs

open Sys2Proof.Machine

/-- Settles O14: the vectors and positions are those after `n` steps of each pass, whose steps follow the rules because the
position never is 0. -/
theorem seedkFollowsTheTwoPasses : Obligations.SeedkFollowsTheTwoPasses := by
  intro key s nonempty
  have hseeded := scalarSeeded_scalarVector keyStartSeed s.mt
  have hother := fun k => readWord_keyVector_of_ne_zero key nonempty s.mt (k := k)
  generalize scalarVector keyStartSeed s.mt = m at hseeded hother
  have hfirst := firstPass_eq_firstPassAfter key nonempty m
  refine ⟨_, execSeedk_eq nonempty s, rfl, rfl, rfl, rfl, rfl,
    fun n => (firstPassAfter key nonempty m n).1.mt,
    fun n => (secondPassStep^[n] (firstPass key nonempty m)).mt,
    fun n => (firstPassAfter key nonempty m n).1.i.val,
    fun n => (firstPassAfter key nonempty m n).2.val,
    fun n => (secondPassStep^[n] (firstPass key nonempty m)).i.val,
    hseeded, rfl, rfl, fun n _ => ?_, congrArg (·.mt) hfirst, congrArg (·.i.val) hfirst, fun n _ => ?_,
    readWord_keyVector_zero key nonempty s.mt, hother⟩
  · simp only [firstPassAfter_succ]
    exact firstPassRule_firstPassStep key (firstPassAfter_i_ne_zero key nonempty m n)
  · simp only [Function.iterate_succ_apply']
    exact secondPassRule_secondPassStep (secondPassStep_iterate_i_ne_zero (firstPass_i_ne_zero key nonempty m) n)

/-- Settles O15: the key seeding starts from a scalar seeding, which overwrites every word before it is read. -/
theorem keySeedingForgetsThePast : Obligations.KeySeedingForgetsThePast := by
  intro key s s' t t' nonempty e e'
  cases e.symm.trans (execSeedk_eq nonempty s)
  cases e'.symm.trans (execSeedk_eq nonempty s')
  exact ⟨keyVector_forgets key nonempty s.mt s'.mt, rfl, rfl⟩

/-- Settles O16: the first pass makes `max(624, L)` steps from position 1, the second one full round. -/
theorem keyPassPositions : Obligations.KeyPassPositions := by
  refine ⟨fun key nonempty mt => ?_, fun p h0 => Fin.ext ?_⟩
  · rw [firstPass_eq_firstPassAfter, firstPassAfter_i]
    split <;> omega
  · have hpos := Fin.val_ne_zero_iff.mpr h0
    rw [secondPass_eq_iterate, secondPassStep_iterate_i h0]
    omega

/-- Settles O17: step `n` targets word `1 + (i - 1 + n) mod 623`, so word `k` is the target of the one step congruent to
`k - i`. -/
theorem secondPassTargetsEachWordOnce : Obligations.SecondPassTargetsEachWordOnce := by
  intro p h0 k hk
  have hpos := Fin.val_ne_zero_iff.mpr h0
  have hkpos := Fin.val_ne_zero_iff.mpr hk
  simp only [Fin.ext_iff, secondPassStep_iterate_i h0]
  refine ⟨(k.val + 623 - p.i.val) % 623, Nat.mod_lt _ (by decide), ?_, fun n' hn' e => ?_⟩
  · omega
  · omega

end Sys2Proof.Proofs

/-! SUPPORT. The words of the twist as the spec words them: one iteration by `tw(mix(u, l))`, and the values it reads (R59,
R61). -/

namespace Sys2Proof.Machine

open Sys2Proof.Rules

/-- The model's conditional XOR of the constant is the spec's XOR of the constant or of zero. -/
theorem twistWord_eq_xor_twMix (a b src : Word) : twistWord a b src = src ^^^ twMix a b := by
  change src ^^^ (if (combine a b).getLsbD 0 then (combine a b >>> 1) ^^^ twistConstant else combine a b >>> 1) =
    src ^^^ ((combine a b >>> 1) ^^^ (if (combine a b).getLsbD 0 then twistConstant else 0#32))
  split
  · rfl
  · rw [BitVec.xor_zero]

theorem readWord_twistUpTo_succ_self (mt : StateVector) (k : Fin 624) :
    readWord (twistUpTo mt (k.val + 1)) k =
      readWord (twistUpTo mt k.val) (indexPlus k twistOffset) ^^^
        twMix (readWord (twistUpTo mt k.val) k) (readWord (twistUpTo mt k.val) (indexPlus k 1)) := by
  rw [twistUpTo_succ, readWord_twistStep, if_pos rfl, twistWord_eq_xor_twMix]

theorem readWord_twistUpTo_succ_of_ne (mt : StateVector) {k j : Fin 624} (h : j ≠ k) :
    readWord (twistUpTo mt (k.val + 1)) j = readWord (twistUpTo mt k.val) j := by
  rw [twistUpTo_succ, readWord_twistStep, if_neg h]

/-- A word of the twisted vector, with the positions it reads given by number; its own word is still the old one. -/
theorem readWord_twistVector_eq_xor_twMix (mt : StateVector) {k src next : Fin 624}
    (hsrc : src.val = (k.val + 397) % 624) (hnext : next.val = (k.val + 1) % 624) :
    readWord (twistVector mt) k =
      readWord (twistUpTo mt k.val) src ^^^ twMix (readWord mt k) (readWord (twistUpTo mt k.val) next) := by
  obtain rfl : src = indexPlus k twistOffset := Fin.ext hsrc
  obtain rfl : next = indexPlus k 1 := Fin.ext hnext
  rw [readWord_twistVector, twistWord_eq_xor_twMix, readWord_twistUpTo_old mt k.val k le_rfl]

end Sys2Proof.Machine

/-! The statements of 42_twist.md. -/

namespace Sys2Proof.Proofs

open Sys2Proof.Machine

/-- Settles O19: the sequence is the vectors after each number of iterations. -/
theorem twistIsAscendingInPlace : Obligations.TwistIsAscendingInPlace := by
  intro s
  refine ⟨twistUpTo s.mt, rfl, ?_, fun k => ⟨?_, fun j hj => ?_⟩⟩
  · rw [twist, twistVector_eq]
  · exact readWord_twistUpTo_succ_self s.mt k
  · exact readWord_twistUpTo_succ_of_ne s.mt hj

/-- Settles O20: iteration `k` reads a new word at the positions before `k` and an old one at the others; the source lies
before `k` from 227 on, the next word only for `k = 623`. -/
theorem twistClosedForm : Obligations.TwistClosedForm := by
  rintro o n rfl
  refine ⟨fun k h => ?_, fun k h => ?_, ?_⟩
  · rw [readWord_twistVector_eq_xor_twMix o (src := ⟨k + 397, by omega⟩) (next := ⟨k + 1, by omega⟩)
        (by dsimp only; omega) (by dsimp only; omega),
      readWord_twistUpTo_old o k _ (Nat.le_add_right k 397), readWord_twistUpTo_old o k _ (Nat.le_add_right k 1)]
  · rw [readWord_twistVector_eq_xor_twMix o (src := ⟨k - 227, by omega⟩) (next := ⟨k + 1, by omega⟩)
        (by dsimp only; omega) (by dsimp only; omega),
      readWord_twistUpTo_new o k (by omega) _ (Nat.sub_lt (by omega) (by decide)),
      readWord_twistUpTo_old o k _ (Nat.le_add_right k 1)]
  · rw [readWord_twistVector_eq_xor_twMix o (k := 623) (src := 396) (next := 0) (by decide) (by decide),
      readWord_twistUpTo_new o _ (by decide) 396 (by decide), readWord_twistUpTo_new o _ (by decide) 0 (by decide)]

end Sys2Proof.Proofs

/-! SUPPORT. The words that reach an output (R70): neither seeder leaves them all zero, and the twist, read backwards, takes
the all-zero vector to no other vector. -/

namespace Sys2Proof.Machine

open Sys2Proof.Rules

theorem not_notAllZero_iff (mt : StateVector) :
    ¬ NotAllZero mt ↔ (readWord mt 0).getLsbD 31 = false ∧ ∀ k : Fin 624, k ≠ 0 → readWord mt k = 0#32 := by
  simp [NotAllZero]

/-- A word is zero when its top bit and its bottom 31 bits are. -/
theorem eq_zero_of_top_of_low {w : Word} (htop : w.getLsbD 31 = false) (hlow : ∀ i < 31, w.getLsbD i = false) :
    w = 0#32 := by
  refine BitVec.eq_of_getLsbD_eq fun i hi => ?_
  rw [BitVec.getLsbD_zero]
  obtain h | rfl : i < 31 ∨ i = 31 := by omega
  · exact hlow i h
  · exact htop

/-- The combined value bit by bit: the top bit of the first word, the others of the second (R59). -/
theorem getLsbD_combine (a b : Word) {i : Nat} (hi : i < 32) :
    (combine a b).getLsbD i = if i = 31 then a.getLsbD i else b.getLsbD i := by
  have hupper : ∀ i < 32, upperMask.getLsbD i = decide (i = 31) := by decide
  have hlower : ∀ i < 32, lowerMask.getLsbD i = !decide (i = 31) := by decide
  rw [combine, BitVec.getLsbD_or, BitVec.getLsbD_and, BitVec.getLsbD_and, hupper i hi, hlower i hi]
  split <;> simp [*]

/-- The shift with its conditional constant loses nothing: bit 31 of the constant tells that bit 0 was 1. -/
theorem eq_zero_of_twistShift_eq_zero {y : Word} (e : twistShift y = 0#32) : y = 0#32 := by
  unfold twistShift at e
  split at e
  · next hodd =>
    have htop := congrArg (·.getLsbD 31) e
    simp [twistConstant] at htop
  · next heven =>
    refine BitVec.eq_of_getLsbD_eq fun i _ => ?_
    cases i with
    | zero => simpa using heven
    | succ i =>
      have hi := congrArg (·.getLsbD i) e
      simpa [Nat.add_comm 1 i] using hi

theorem twMix_eq_twistShift_combine (u l : Word) : twMix u l = twistShift (combine u l) := by
  simpa [twistWord] using (twistWord_eq_xor_twMix u l 0#32).symm

/-- A mix that twists to zero was zero: the top bit of its first word and the bottom 31 bits of its second. -/
theorem top_and_low_of_twMix_eq_zero {u l : Word} (e : twMix u l = 0#32) :
    u.getLsbD 31 = false ∧ ∀ i < 31, l.getLsbD i = false := by
  rw [twMix_eq_twistShift_combine] at e
  have hbit : ∀ i < 32, (if i = 31 then u.getLsbD i else l.getLsbD i) = false := fun i hi => by
    rw [← getLsbD_combine u l hi, eq_zero_of_twistShift_eq_zero e, BitVec.getLsbD_zero]
  refine ⟨hbit 31 (by decide), fun i hi => ?_⟩
  have h := hbit i (by omega)
  rwa [if_neg (by omega)] at h

/-- Where the mixes of neighbours from word `m` on twist to zero and word 623 has no top bit, the words after `m` are
zero: each gets its bottom bits from the mix before it and its top bit from its own. -/
theorem readWord_eq_zero_of_twMix_eq_zero {o : StateVector} {m : Nat}
    (hmix : ∀ k (h : m ≤ k ∧ k ≤ 622), twMix (readWord o ⟨k, by omega⟩) (readWord o ⟨k + 1, by omega⟩) = 0#32)
    (htop : (readWord o 623).getLsbD 31 = false) (j : Nat) (hj : m ≤ j ∧ j ≤ 622) :
    readWord o ⟨j + 1, by omega⟩ = 0#32 := by
  refine eq_zero_of_top_of_low ?_ (top_and_low_of_twMix_eq_zero (hmix j hj)).2
  obtain h | rfl : j + 1 ≤ 622 ∨ j = 622 := by omega
  · exact (top_and_low_of_twMix_eq_zero (hmix (j + 1) ⟨by omega, h⟩)).1
  · exact htop

/-- The twist leaves the output words all zero only where they were (R70): by the closed form (R61), the zero words of the
new vector make the mixes zero from word 623 down to word 227 first, and then, the sources being zero, those before. -/
theorem notAllZero_twistVector {o : StateVector} (ho : NotAllZero o) : NotAllZero (twistVector o) := by
  by_contra hn
  refine (not_notAllZero_iff o).mpr ?_ ho
  obtain ⟨htop, hzero⟩ := (not_notAllZero_iff _).mp hn
  obtain ⟨front, middle, last⟩ := Proofs.twistClosedForm o _ rfl
  generalize twistVector o = n at *
  have hlast : twMix (readWord o 623) (readWord n 0) = 0#32 := by
    simpa [hzero 623 (by decide), hzero 396 (by decide)] using last.symm
  obtain ⟨htop623, hlow0⟩ := top_and_low_of_twMix_eq_zero hlast
  have hnew : ∀ k, readWord n k = 0#32 := fun k => by
    by_cases hk : k = 0
    · exact hk ▸ eq_zero_of_top_of_low htop hlow0
    · exact hzero k hk
  have hmiddle : ∀ k (h : 227 ≤ k ∧ k ≤ 622),
      twMix (readWord o ⟨k, by omega⟩) (readWord o ⟨k + 1, by omega⟩) = 0#32 := fun k h => by
    simpa [hnew] using (middle k h).symm
  have hmix : ∀ k (h : 0 ≤ k ∧ k ≤ 622),
      twMix (readWord o ⟨k, by omega⟩) (readWord o ⟨k + 1, by omega⟩) = 0#32 := fun k h => by
    by_cases hk : k ≤ 226
    · have hsource := readWord_eq_zero_of_twMix_eq_zero hmiddle htop623 (k + 396) (by omega)
      simpa [hnew, hsource] using (front k hk).symm
    · exact hmiddle k (by omega)
  refine ⟨(top_and_low_of_twMix_eq_zero (hmix 0 (by decide))).1, fun k hk => ?_⟩
  obtain ⟨j, rfl⟩ := Fin.exists_succ_eq.mpr hk
  exact readWord_eq_zero_of_twMix_eq_zero hmix htop623 j (by omega)

/-- Words 1 and 2 of a scalar seeding are not both zero: word 2 of a zero word 1 is 2 (R45, R70). -/
theorem notAllZero_scalarVector (seed : Word) (mt : StateVector) : NotAllZero (scalarVector seed mt) := by
  by_cases h : scalarWord seed 1 = 0#32
  · refine .inr ⟨2, by decide, ?_⟩
    have hword : scalarWord seed 2 = scalarNext 0#32 2 := by rw [← h]; rfl
    rw [readWord_scalarVector]
    exact hword ▸ by decide
  · exact .inr ⟨1, by decide, by rw [readWord_scalarVector]; exact h⟩

/-- A key seeding forces the top bit of word 0 (R54). -/
theorem notAllZero_keyVector (key : List Word) (nonempty : 0 < key.length) (mt : StateVector) :
    NotAllZero (keyVector key nonempty mt) :=
  .inl (by rw [readWord_keyVector_zero]; decide)

theorem notAllZero_draw {s : State} (hs : Live s) : NotAllZero (draw s).2.mt := by
  obtain ⟨k, hseeded, -, e⟩ | ⟨hseeded, -, e⟩ | ⟨-, e⟩ := draw_cases s <;> rw [e]
  · exact hs hseeded
  · exact notAllZero_twistVector (hs hseeded)
  · exact notAllZero_twistVector (notAllZero_scalarVector _ _)

theorem execCommand_keeps_live {c : Command} {s t : State} (hs : Live s) (e : execCommand c s = .next t) : Live t := by
  cases c with
  | bad cause h =>
    cases e.symm.trans (raise_eq cause h s)
    exact hs
  | instr i =>
    cases i with
    | seeds seed =>
      cases e.symm.trans (execSeeds_eq seed s)
      exact fun _ => notAllZero_scalarVector seed s.mt
    | seedk key =>
      by_cases hkey : 0 < key.length
      · cases e.symm.trans (execSeedk_eq hkey s)
        exact fun _ => notAllZero_keyVector key hkey s.mt
      · cases e.symm.trans (dif_neg hkey)
        exact hs
    | next =>
      cases e.symm.trans (exec_next s)
      exact fun _ => notAllZero_draw hs

theorem stepWith_keeps_live {kmax : Nat} {s t : State} (hs : Live s) (e : stepWith kmax s = .next t) : Live t := by
  obtain ⟨-, e'⟩ | ⟨w, rest, -, -, e'⟩ | ⟨w, rest, h, ops, -, -, e'⟩ := stepWith_cases kmax s
  · cases e.symm.trans e'
    exact hs
  · cases e.symm.trans e'
    exact hs
  · exact execCommand_keeps_live (s := { s with frame := [], commands := rest }) hs (e'.symm.trans e)

end Sys2Proof.Machine

/-! SUPPORT. The tempering bit by bit, its linearity, and how iterating undoes a stage (R63, R64). -/

namespace Sys2Proof.Machine

/-! ### The stages bit by bit -/

/-- A word XORed with itself shifted right: bit `i` meets bit `i + n`, as far as there is one. -/
theorem getLsbD_xor_ushiftRight (y : Word) (n i : Nat) :
    (y ^^^ (y >>> n)).getLsbD i = (y.getLsbD i ^^ (decide (i + n < 32) && y.getLsbD (i + n))) := by
  rw [BitVec.getLsbD_xor, BitVec.getLsbD_ushiftRight, Nat.add_comm n i]
  by_cases h : i + n < 32
  · simp [h]
  · simp [h, BitVec.getLsbD_of_ge y (i + n) (by omega)]

/-- A bit of a word shifted left and masked. -/
theorem getLsbD_shiftLeft_and (y : Word) (n : Nat) (mask : Word) {i : Nat} (hi : i < 32) :
    ((y <<< n) &&& mask).getLsbD i = (decide (n ≤ i) && y.getLsbD (i - n) && mask.getLsbD i) := by
  simp only [BitVec.getLsbD_and, BitVec.getLsbD_shiftLeft, hi, decide_true, Bool.true_and, ← decide_not, Nat.not_lt]

/-- A word XORed with itself shifted left and masked: bit `i` meets bit `i - n` where the mask has a 1. -/
theorem getLsbD_xor_shiftLeft_and (y : Word) (n : Nat) (mask : Word) {i : Nat} (hi : i < 32) :
    (y ^^^ ((y <<< n) &&& mask)).getLsbD i =
      (y.getLsbD i ^^ (decide (n ≤ i) && y.getLsbD (i - n) && mask.getLsbD i)) := by
  rw [BitVec.getLsbD_xor, getLsbD_shiftLeft_and y n mask hi]

/-! ### Linearity over XOR -/

/-- A function on words that XOR passes through. -/
def XorLinear (g : Word → Word) : Prop := ∀ a b, g (a ^^^ b) = g a ^^^ g b

theorem xorLinear_ushiftRight (n : Nat) : XorLinear (fun y => y >>> n) :=
  fun a b => BitVec.ushiftRight_xor_distrib a b n

theorem xorLinear_shiftLeft_and (n : Nat) (mask : Word) : XorLinear (fun y => (y <<< n) &&& mask) := by
  intro a b
  refine BitVec.eq_of_getLsbD_eq fun i _ => ?_
  simp only [BitVec.shiftLeft_xor_distrib, BitVec.getLsbD_and, BitVec.getLsbD_xor, Bool.and_xor_distrib_right]

theorem XorLinear.comp {f g : Word → Word} (hf : XorLinear f) (hg : XorLinear g) : XorLinear (fun y => f (g y)) :=
  fun a b => (congrArg f (hg a b)).trans (hf _ _)

theorem XorLinear.xor_self {g : Word → Word} (hg : XorLinear g) : XorLinear (fun y => y ^^^ g y) := by
  intro a b
  simp only [hg a b]
  ac_rfl

theorem xorLinear_temperStage1 : XorLinear temperStage1 := (xorLinear_ushiftRight 11).xor_self

theorem xorLinear_temperStage2 : XorLinear temperStage2 := (xorLinear_shiftLeft_and 7 temperMaskB).xor_self

theorem xorLinear_temperStage3 : XorLinear temperStage3 := (xorLinear_shiftLeft_and 15 temperMaskC).xor_self

theorem xorLinear_temperStage4 : XorLinear temperStage4 := (xorLinear_ushiftRight 18).xor_self

theorem xorLinear_temper : XorLinear temper :=
  xorLinear_temperStage4.comp (xorLinear_temperStage3.comp (xorLinear_temperStage2.comp xorLinear_temperStage1))

/-! ### Undoing a stage -/

/-- Iterating `x = y XOR g(x)` from `y = w XOR g(w)` comes back to `w` once `g` has shifted everything out: `w` is a fixed
point, and each iteration applies `g` to the difference from it. -/
theorem iterate_xor_eq_of_nilpotent {g : Word → Word} (hg : XorLinear g) {n : Nat} (w : Word)
    (hnil : g^[n + 1] w = 0#32) : (fun x => (w ^^^ g w) ^^^ g x)^[n] (w ^^^ g w) = w := by
  have hdiff : ∀ m, (fun x => (w ^^^ g w) ^^^ g x)^[m] (w ^^^ g w) = w ^^^ g^[m + 1] w := by
    intro m
    induction m with
    | zero => rfl
    | succ m ih =>
      rw [Function.iterate_succ_apply', ih, hg, ← Function.iterate_succ_apply' g, ← BitVec.xor_assoc,
        xor_cancel_right]
  rw [hdiff, hnil, BitVec.xor_zero]

theorem iterate_ushiftRight (n m : Nat) (w : Word) : (fun y : Word => y >>> n)^[m] w = w >>> (n * m) := by
  induction m with
  | zero => simp
  | succ m ih => rw [Function.iterate_succ_apply', ih, Nat.mul_succ, BitVec.shiftRight_add]

theorem iterate_ushiftRight_eq_zero {n m : Nat} (h : 32 ≤ n * m) (w : Word) : (fun y : Word => y >>> n)^[m] w = 0#32 := by
  rw [iterate_ushiftRight, BitVec.ushiftRight_eq_zero h]

/-- Shifted left `m` times, masked or not, a word has its bottom `n * m` bits zero. -/
theorem getLsbD_iterate_shiftLeft_and (n : Nat) (mask : Word) (m : Nat) (w : Word) {i : Nat} (hi : i < 32)
    (hlow : i < n * m) : ((fun y : Word => (y <<< n) &&& mask)^[m] w).getLsbD i = false := by
  induction m generalizing i with
  | zero => simp at hlow
  | succ m ih =>
    rw [Nat.mul_succ] at hlow
    rw [Function.iterate_succ_apply', getLsbD_shiftLeft_and _ n mask hi]
    by_cases h : n ≤ i
    · simp [ih (i := i - n) (by omega) (by omega)]
    · simp [h]

theorem iterate_shiftLeft_and_eq_zero {n m : Nat} (h : 32 ≤ n * m) (mask w : Word) :
    (fun y : Word => (y <<< n) &&& mask)^[m] w = 0#32 :=
  BitVec.eq_of_getLsbD_eq fun _ hi =>
    (getLsbD_iterate_shiftLeft_and n mask m w hi (by omega)).trans BitVec.getLsbD_zero.symm

/-- The third stage's shift and mask applied twice leave nothing, though 30 bits are less than a word: the mask has no bit
15 or 16, so the first application leaves nothing to reach bits 30 and 31. -/
theorem iterate_shiftLeft_and_temperMaskC_eq_zero (w : Word) :
    (fun y : Word => (y <<< 15) &&& temperMaskC)^[2] w = 0#32 := by
  have hmask : ∀ i < 32, 30 ≤ i → temperMaskC.getLsbD (i - 15) = false := by decide
  refine BitVec.eq_of_getLsbD_eq fun i hi => ?_
  rw [BitVec.getLsbD_zero]
  by_cases h : i < 30
  · exact getLsbD_iterate_shiftLeft_and 15 temperMaskC 2 w hi h
  · rw [Function.iterate_succ_apply', Function.iterate_one, getLsbD_shiftLeft_and _ 15 temperMaskC hi,
      getLsbD_shiftLeft_and w 15 temperMaskC (by omega), hmask i hi (by omega)]
    simp

theorem temperStage4_temperStage4 (w : Word) : temperStage4 (temperStage4 w) = w :=
  iterate_xor_eq_of_nilpotent (n := 1) (xorLinear_ushiftRight 18) w
    (iterate_ushiftRight_eq_zero (n := 18) (m := 2) (by decide) w)

theorem temperStage3_temperStage3 (w : Word) : temperStage3 (temperStage3 w) = w :=
  iterate_xor_eq_of_nilpotent (n := 1) (xorLinear_shiftLeft_and 15 temperMaskC) w
    (iterate_shiftLeft_and_temperMaskC_eq_zero w)

/-- `y1` of `Untemper` from its `y2` (R64). -/
def undoStage2 (y2 : Word) : Word := (fun x : Word => y2 ^^^ ((x <<< 7) &&& temperMaskB))^[5] y2

/-- `y0` of `Untemper` from its `y1` (R64). -/
def undoStage1 (y1 : Word) : Word := (fun x : Word => y1 ^^^ (x >>> 11))^[3] y1

/-- The last two stages are undone by themselves (R64). -/
theorem untemper_eq (z : Word) : untemper z = undoStage1 (undoStage2 (temperStage3 (temperStage4 z))) := rfl

theorem undoStage2_temperStage2 (w : Word) : undoStage2 (temperStage2 w) = w :=
  iterate_xor_eq_of_nilpotent (xorLinear_shiftLeft_and 7 temperMaskB) w
    (iterate_shiftLeft_and_eq_zero (n := 7) (m := 6) (by decide) temperMaskB w)

theorem undoStage1_temperStage1 (w : Word) : undoStage1 (temperStage1 w) = w :=
  iterate_xor_eq_of_nilpotent (xorLinear_ushiftRight 11) w (iterate_ushiftRight_eq_zero (n := 11) (m := 4) (by decide) w)

theorem untemper_temper (y : Word) : untemper (temper y) = y := by
  rw [untemper_eq, temper, temperStage4_temperStage4, temperStage3_temperStage3, undoStage2_temperStage2,
    undoStage1_temperStage1]

/-- There are finitely many words, so an injective `Temper` reaches them all. -/
theorem temper_untemper (z : Word) : temper (untemper z) = z := by
  have hleft : Function.LeftInverse untemper temper := untemper_temper
  exact hleft.rightInverse_of_surjective (Finite.injective_iff_surjective.mp hleft.injective) z

end Sys2Proof.Machine

/-! SUPPORT. Seedings that forget the past, commands in sequence, and where the draws since a seeding have left the engine
(R65, R67, R69). -/

namespace Sys2Proof.Machine

open Sys2Proof.Rules

/-! ### Seedings and sequences of commands -/

/-- A draw from a never-seeded engine, written out: seed with 5489, twist, take word 0 (R65, R66). -/
theorem draw_unseeded {s : State} (hs : s.seeded = false) :
    draw s = (temper (readWord (twistVector (scalarVector defaultSeed s.mt)) 0),
      { s with mt := twistVector (scalarVector defaultSeed s.mt), idx := 1, seeded := true }) :=
  (draw_never hs).trans (draw_exhausted (initScalar_seeded _ _) le_rfl)

/-- A seeding leaves one and the same vector in every state, with the cursor at 624 (R46, R55). -/
theorem exec_seeding {kmax : Nat} {i : Instr} (hne : i ≠ .next) (wf : wellFormed kmax i = true) :
    ∃ m, ∀ s, exec i s =
      .next { s with mt := m, idx := 624, seeded := true, responses := s.responses ++ [0#32, 0#32] } := by
  cases i with
  | seeds seed =>
    refine ⟨scalarVector seed State.reset.mt, fun s => ?_⟩
    rw [scalarVector_forgets seed State.reset.mt s.mt]
    exact execSeeds_eq seed s
  | seedk key =>
    obtain ⟨hkey, -⟩ := (wellFormed_seedk_iff kmax key).mp wf
    refine ⟨keyVector key hkey State.reset.mt, fun s => ?_⟩
    rw [keyVector_forgets key hkey State.reset.mt s.mt]
    exact execSeedk_eq hkey s
  | next => exact absurd rfl hne

theorem runCommands_cons {c : Command} {cs : List Command} {s t : State} (e : execCommand c s = .next t) :
    runCommands (c :: cs) s = runCommands cs t := by
  rw [runCommands, e]

theorem runCommands_instr {i : Instr} {cs : List Command} {s t : State} (e : exec i s = .next t) :
    runCommands (.instr i :: cs) s = runCommands cs t :=
  runCommands_cons e

theorem runCommands_bad (cause : Cause) (header : Word) (cs : List Command) (s : State) :
    runCommands (.bad cause header :: cs) s = runCommands cs (respond (.refused cause) header s) := rfl

/-- Commands in sequence append the same responses and change the engine the same way whatever the streams hold. -/
theorem runCommands_streams (cs : List Command) (s : State) :
    ∃ (t : State) (new : List Word), ∀ f commands r,
      runCommands cs { s with frame := f, commands := commands, responses := r } =
        .next { t with frame := f, commands := commands, responses := r ++ new } := by
  induction cs generalizing s with
  | nil => exact ⟨s, [], fun f commands r => by rw [List.append_nil]; rfl⟩
  | cons c cs ih =>
    obtain ⟨t, status, data, ht⟩ := execCommand_streams c s
    obtain ⟨u, new, hu⟩ := ih t
    refine ⟨u, [status, data] ++ new, fun f commands r => ?_⟩
    rw [runCommands_cons (ht f commands r), hu, List.append_assoc]

/-! ### The engine after a number of draws -/

/-- The engine after `n` draws from the seeded vector `S` (R67): the generation of draw `n` and the cursor behind its word;
before the first draw, `S` itself and the cursor at 624. -/
def AfterDraws (S : StateVector) (n : Nat) (s : State) : Prop :=
  s.seeded = true ∧ s.mt = twistVector^[(n + 623) / 624] S ∧ s.idx.val = (n + 623) % 624 + 1

theorem afterDraws_zero {s : State} (hs : s.seeded = true) (hidx : s.idx = 624) : AfterDraws s.mt 0 s :=
  ⟨hs, rfl, by rw [hidx]; rfl⟩

/-- Draw `n + 1` takes word `n mod 624` of generation `1 + n / 624` (R67): it twists exactly when `n` is a multiple of
624. -/
theorem draw_of_afterDraws {S : StateVector} {n : Nat} {s : State} (h : AfterDraws S n s) :
    (draw s).1 = temper (readWord (twistVector^[1 + n / 624] S) ⟨n % 624, Nat.mod_lt _ (by decide)⟩) ∧
      AfterDraws S (n + 1) (draw s).2 := by
  obtain ⟨hs, hmt, hidx⟩ := h
  have hgeneration : (n + 1 + 623) / 624 = 1 + n / 624 := by omega
  have hcursor : (n + 1 + 623) % 624 = n % 624 := by omega
  rw [AfterDraws, hgeneration, hcursor]
  by_cases hn : n % 624 = 0
  · have htwist : 1 + n / 624 = (n + 623) / 624 + 1 := by omega
    have hword : (⟨n % 624, Nat.mod_lt _ (by decide)⟩ : Fin 624) = 0 := Fin.ext hn
    rw [draw_exhausted hs (by omega), htwist, Function.iterate_succ_apply', ← hmt, hword, hn]
    exact ⟨rfl, hs, rfl, rfl⟩
  · have hkeep : 1 + n / 624 = (n + 623) / 624 := by omega
    rw [draw_ready hs ⟨n % 624, Nat.mod_lt _ (by decide)⟩ (by dsimp only; omega), hkeep, ← hmt]
    exact ⟨rfl, hs, rfl, rfl⟩

/-- NEXT commands with refused frames between them are draws: a refused frame leaves the engine alone (R67, R88). -/
theorem runCommands_afterDraws {S : StateVector} {n : Nat} {s : State} (h : AfterDraws S n s) (cs : List Command)
    (hcs : ∀ c ∈ cs, c = .instr .next ∨ ∃ cause header, c = .bad cause header) :
    ∃ t, runCommands cs s = .next t ∧ AfterDraws S (n + cs.count (.instr .next)) t := by
  induction cs generalizing n s with
  | nil => exact ⟨s, rfl, h⟩
  | cons c cs ih =>
    obtain ⟨hc, hrest⟩ := List.forall_mem_cons.mp hcs
    obtain rfl | ⟨cause, header, rfl⟩ := hc
    · rw [runCommands_instr (exec_next s), List.count_cons_self, Nat.add_comm _ 1, ← Nat.add_assoc]
      exact ih (draw_of_afterDraws h).2 hrest
    · rw [runCommands_bad, List.count_cons_of_ne (by simp)]
      exact ih (s := respond (.refused cause) header s) h hrest

end Sys2Proof.Machine

/-! The statements of 43_next_temper.md. -/

namespace Sys2Proof.Proofs

open Sys2Proof.Machine

/-- Settles O33: no seeding leaves the output words all zero, and a twist does so only where they were before. -/
theorem stepKeepsLive : Obligations.StepKeepsLive :=
  fun _ _ _ hs e => stepWith_keeps_live hs e

/-- Settles O21: a right shift brings bit `i + n`, a masked left shift bit `i - n`. -/
theorem temperStagesBitByBit : Obligations.TemperStagesBitByBit := fun y =>
  ⟨fun i _ => getLsbD_xor_ushiftRight y 11 i, fun _ hi => getLsbD_xor_shiftLeft_and y 7 temperMaskB hi,
    fun _ hi => getLsbD_xor_shiftLeft_and y 15 temperMaskC hi, fun i _ => getLsbD_xor_ushiftRight y 18 i, rfl⟩

/-- Settles O22: each stage is linear, and `Untemper` undoes the stages one by one. -/
theorem temperIsALinearBijection : Obligations.TemperIsALinearBijection :=
  ⟨by decide, xorLinear_temper, untemper_temper, temper_untemper⟩

/-- Settles O23: the three cases of a draw. -/
theorem nextDrawsOneWord : Obligations.NextDrawsOneWord := by
  refine ⟨fun s k hs hk => ?_, fun s hs hidx => ?_, fun s hs => ?_⟩
  · rw [exec_next, draw_ready hs k hk]
  · rw [exec_next, draw_exhausted hs (hidx ▸ le_rfl)]
  · refine ⟨scalarVector defaultSeed s.mt, scalarSeeded_scalarVector defaultSeed s.mt, ?_⟩
    rw [exec_next, draw_unseeded hs]

/-- Settles O25: a never-seeded engine draws as after SEEDS 5489 (`draw_never`), and a seeded one stays so and has no third
case of a draw. -/
theorem defaultSeedingHappensOnce : Obligations.DefaultSeedingHappensOnce := by
  refine ⟨fun s hs => ?_, fun kmax s t hs e => stepWith_keeps_seeded hs e, fun kmax i s hne wf => ?_, fun s hs => ?_⟩
  · refine ⟨_, _, execSeeds_eq 5489#32 s, exec_next (initScalar defaultSeed s), ?_, draw_seeded _⟩
    rw [exec_next, draw_never hs]
  · obtain ⟨m, e⟩ := exec_seeding hne wf
    exact ⟨_, e s, rfl⟩
  · refine ⟨_, exec_next s, draw_seeded s, fun hidx => ?_, fun hidx => ?_⟩
    · have hlt : s.idx.val < 624 := Fin.lt_last_iff_ne_last.mpr hidx
      rw [draw_ready hs ⟨s.idx.val, hlt⟩ rfl]
    · rw [draw_exhausted hs (hidx ▸ le_rfl)]

/-- Settles O27, by `AfterDraws`, which every draw carries on and every refused frame keeps. -/
theorem outputStreamByGenerations : Obligations.OutputStreamByGenerations := by
  refine ⟨fun s cs hs hidx hcs => ?_, fun kmax i s t hne wf e => ?_⟩
  · obtain ⟨t, et, ht⟩ := runCommands_afterDraws (afterDraws_zero hs hidx) cs hcs
    rw [Nat.zero_add] at ht
    obtain ⟨houtput, -, hmt, hcursor⟩ := draw_of_afterDraws ht
    refine ⟨t, _, et, exec_next t, ?_, ?_, ?_⟩
    · exact hmt.trans (by congr 2; omega)
    · exact hcursor.trans (by omega)
    · rw [draw_responses, houtput]
  · obtain ⟨m, em⟩ := exec_seeding hne wf
    cases e.symm.trans (em s)
    exact ⟨rfl, rfl⟩

/-- Settles O28: the seeding leaves one engine in both states, and the commands after it do not look at the streams. -/
theorem sameSeedSameStream : Obligations.SameSeedSameStream := by
  intro kmax seeding cs s s' hne wf
  obtain ⟨m, em⟩ := exec_seeding hne wf
  obtain ⟨t, new, ht⟩ := runCommands_streams cs { s with mt := m, idx := 624, seeded := true }
  refine ⟨_, _, [0#32, 0#32] ++ new, (runCommands_instr (em s)).trans (ht _ _ _),
    (runCommands_instr (em s')).trans (ht _ _ _), ?_, ?_, rfl, rfl, rfl⟩
  · exact List.append_assoc _ _ _
  · exact List.append_assoc _ _ _

end Sys2Proof.Proofs

/-! SUPPORT. The host's functions over the block, one lemma for each outcome: a call of one command, the entropy key, the
bounded draw and its signed form (R71 to R78). -/

namespace Sys2Proof.Machine

/-! ### A call -/

/-- A call gives the DATA word of the response, and leaves the response stream as it was (R71). -/
theorem call_of_exec {i : Instr} {s t : State} {status data : Word} (e : exec i s = .next t)
    (hresp : t.responses = s.responses ++ [status, data]) :
    call i s = ({ t with responses := s.responses }, data) := by
  simp [call, e, hresp]

/-! ### The entropy key (R75) -/

theorem map_toNat_entropyKey (values : List (BitVec 8)) :
    (entropyKey values).map BitVec.toNat = values.map BitVec.toNat := by
  have hword : ∀ b : BitVec 8, (b.zeroExtend 32).toNat = b.toNat :=
    fun b => BitVec.toNat_setWidth_of_le (by decide)
  simp [entropyKey, hword]

theorem length_entropyKey (values : List (BitVec 8)) : (entropyKey values).length = values.length :=
  List.length_map _

/-- A reading of 1 to KMAX values is sent whole, as the key of one SEEDK (R72). -/
theorem autoSeed_of_values {kmax : Nat} {values : List (BitVec 8)} (h1 : 1 ≤ values.length)
    (hk : values.length ≤ kmax) (s : State) :
    autoSeed kmax (some values) s = (.ok (), (call (.seedk (entropyKey values)) s).1) := by
  have htake : (entropyKey values).take kmax = entropyKey values :=
    List.take_of_length_le ((length_entropyKey values).trans_le hk)
  cases values with
  | nil => cases h1
  | cons b bs => rw [autoSeed, htake]

/-! ### The bounded draw (R76) -/

theorem nextInRange_of_le {min max : Word} (h : max.toNat ≤ min.toNat) (s : State) :
    nextInRange min max s = (.error .invalidRange, s) :=
  if_pos h

/-- With min below max the bounded draw is one call of NEXT. The span is at most 2^32, so the reduced and shifted output is
the integer the rule writes, not a wrapped one. -/
theorem nextInRange_of_lt {min max : Word} (h : min.toNat < max.toNat) (s : State) :
    ∃ v : Word, nextInRange min max s = (.ok v, (call .next s).1) ∧
      v.toNat = (call .next s).2.toNat % (max.toNat - min.toNat + 1) + min.toNat ∧
      min.toNat ≤ v.toNat ∧ v.toNat ≤ max.toNat := by
  have hmod : (call .next s).2.toNat % (max.toNat - min.toNat + 1) < max.toNat - min.toNat + 1 :=
    Nat.mod_lt _ (Nat.succ_pos _)
  have hmax : max.toNat < 2 ^ 32 := max.isLt
  refine ⟨_, if_neg h.not_ge, ?_⟩
  rw [BitVec.toNat_ofNat, Nat.mod_eq_of_lt (by omega)]
  exact ⟨rfl, by omega, by omega⟩

/-! ### The signed bounded draw with two's-complement bounds (R78) -/

/-- A bound from 0 on is its own word. -/
theorem toNat_ofInt_of_nonneg {x : Int} (h0 : 0 ≤ x) (hx : x < 2 ^ 31) : ((BitVec.ofInt 32 x).toNat : Int) = x := by
  rw [BitVec.toNat_ofInt]
  omega

/-- A negative bound is the word 2^32 above it. -/
theorem toNat_ofInt_of_neg {x : Int} (h0 : x < 0) (hx : -2 ^ 31 ≤ x) :
    ((BitVec.ofInt 32 x).toNat : Int) = x + 2 ^ 32 := by
  rw [BitVec.toNat_ofInt]
  omega

theorem nextInRangeSigned_of_le {smin smax : Int} (h : (BitVec.ofInt 32 smax).toNat ≤ (BitVec.ofInt 32 smin).toNat)
    (s : State) : nextInRangeSigned Config.signedBounds smin smax s = (.error .invalidRange, s) := by
  simp only [nextInRangeSigned, Config.signedBounds, nextInRange_of_le h s]

/-- With the word of smin below that of smax, the result is a word between the two, refused above 2^31 - 1. -/
theorem nextInRangeSigned_of_lt {smin smax : Int} (h : (BitVec.ofInt 32 smin).toNat < (BitVec.ofInt 32 smax).toNat)
    (s : State) :
    ∃ u : Word, (BitVec.ofInt 32 smin).toNat ≤ u.toNat ∧ u.toNat ≤ (BitVec.ofInt 32 smax).toNat ∧
      nextInRangeSigned Config.signedBounds smin smax s =
        if 2 ^ 31 - 1 < u.toNat then (.error .overflow, (call .next s).1)
        else (.ok (u.toNat : Int), (call .next s).1) := by
  obtain ⟨u, hu, -, hlo, hhi⟩ := nextInRange_of_lt h s
  refine ⟨u, hlo, hhi, ?_⟩
  simp only [nextInRangeSigned, Config.signedBounds, hu]

end Sys2Proof.Machine

/-! The statements of 45_host_layer.md. -/

namespace Sys2Proof.Proofs

open Sys2Proof.Machine

/-- Settles O39: `nextInRange_of_le` and `nextInRange_of_lt`, the call being the one NEXT. -/
theorem boundedDraw : Obligations.BoundedDraw := by
  refine ⟨fun min max s h => nextInRange_of_le h s, fun min max s h => ?_⟩
  obtain ⟨v, hdraw, hv, hlo, hhi⟩ := nextInRange_of_lt h s
  have hresp : (draw s).2.responses ++ [0#32, (draw s).1] = s.responses ++ [0#32, (draw s).1] := by rw [draw_responses]
  rw [call_of_exec (exec_next s) hresp] at hdraw hv
  exact ⟨_, _, v, exec_next s, hresp, hdraw, hv, hlo, hhi⟩

/-- Settles O40: two's complement keeps the order of two bounds of one sign and puts a negative bound above every other; a
drawn word between two negative bounds is 2^31 or more. -/
theorem signedBoundedDraw : Obligations.SignedBoundedDraw := by
  intro smin smax s hmin hmin' hmax hmax'
  refine ⟨fun h0 hlt => ?_, fun hneg h0 => ?_, fun hlt hneg => ?_⟩
  · have hlo := toNat_ofInt_of_nonneg h0 hmin'
    have hhi := toNat_ofInt_of_nonneg (h0.trans hlt.le) hmax'
    obtain ⟨u, hul, huh, hdraw⟩ := nextInRangeSigned_of_lt (smin := smin) (smax := smax) (by omega) s
    exact ⟨u.toNat, hdraw.trans (if_neg (by omega)), by omega, by omega⟩
  · have hlo := toNat_ofInt_of_neg hneg hmin
    have hhi := toNat_ofInt_of_nonneg h0 hmax'
    exact nextInRangeSigned_of_le (by omega) s
  · have hlo := toNat_ofInt_of_neg (hlt.trans hneg) hmin
    have hhi := toNat_ofInt_of_neg hneg hmax
    obtain ⟨u, hul, -, hdraw⟩ := nextInRangeSigned_of_lt (smin := smin) (smax := smax) (by omega) s
    exact hdraw.trans (if_pos (by omega))

/-- Settles O41: the entropy key of 1 to KMAX values is the key of a well-formed SEEDK, and construction and reseeding are
both one call of it. -/
theorem autoSeedIsOneSeedk : Obligations.AutoSeedIsOneSeedk := by
  refine ⟨fun kmax s => ⟨rfl, rfl⟩, fun kmax values s h1 hk => ?_⟩
  have wf : wellFormed kmax (.seedk (entropyKey values)) = true := by
    rw [wellFormed_seedk_iff, length_entropyKey]
    exact ⟨h1, hk⟩
  obtain ⟨t, data, e, -, -, hresp⟩ := exec_of_wellFormed wf s
  have hseed : autoSeed kmax (some values) s = (.ok (), { t with responses := s.responses }) := by
    rw [autoSeed_of_values h1 hk, call_of_exec e hresp]
  exact ⟨entropyKey values, t, map_toNat_entropyKey values, e, hseed, hseed⟩

end Sys2Proof.Proofs

/-! SUPPORT. The two ways to an error response: a frame the decoder refuses, and the empty key as a term (R50, R86, R88). -/

namespace Sys2Proof.Machine

/-- A refused frame is answered with its cause and its header, and nothing else changes (R88). -/
theorem execCommand_bad (cause : Cause) (h : Word) (s : State) :
    execCommand (.bad cause h) s =
      .next { s with responses := s.responses ++ [statusWord (.refused cause), h] } :=
  raise_eq cause h s

/-- The empty key as a term raises BAD_LENGTH with the header a frame without key words would carry (log entry 7). -/
theorem exec_seedk_nil (s : State) : exec (.seedk []) s = raise .badLength (header opcSeedk 0) s := by
  rw [exec, execSeedk, dif_neg (by simp)]

end Sys2Proof.Machine

/-! The statements of 60_exceptions.md. -/

namespace Sys2Proof.Proofs

open Sys2Proof.Machine

/-- Settles O5: the frame is complete, so the step answers what it is refused for, and each cause has its own code. -/
theorem refusedFrameChangesOnlyResponses : Obligations.RefusedFrameChangesOnlyResponses := by
  intro kmax s w rest h ops cause hc hf hlen hd
  rw [stepWith_of_complete kmax hc (hf ▸ completeFrame?_of_length_eq hlen), hd, execCommand_bad]
  cases cause with
  | illegalOpcode => rw [statusWord_illegalOpcode]
  | reservedNonzero => rw [statusWord_reservedNonzero]
  | badLength => rw [statusWord_badLength]

/-- Settles O9: a step waits, stores a word or executes a command, and every command completes (`stepWith_completes`). -/
theorem everyStepAnswersNext : Obligations.EveryStepAnswersNext := stepWith_completes

/-- Settles O18: the header has the opcode of SEEDK and LEN = 0, which no KMAX allows, and the term raises the same error. -/
theorem emptyKeyIsRefused : Obligations.EmptyKeyIsRefused := by
  refine ⟨fun kmax ops => ?_, fun s => ?_⟩
  · exact decodeFrame_seedk_badLength (by decide) (by decide) (.inl (by decide))
  · have hheader : header opcSeedk 0 = 0x02000000#32 := by decide
    rw [exec_seedk_nil, hheader, raise_eq, statusWord_badLength]

end Sys2Proof.Proofs

/-! SUPPORT. Runs over whole frames: what sequences of commands answer, and the word level over a list of frames (R30,
R101, R103). -/

namespace Sys2Proof.Machine

open Sys2Proof.Rules

/-! ### Runs and sequences of commands, cut in two -/

theorem runWith_add {kmax m : Nat} {s t : State} (n : Nat) (e : runWith kmax m s = .next t) :
    runWith kmax (m + n) s = runWith kmax n t := by
  induction m generalizing s with
  | zero =>
    cases e
    rw [Nat.zero_add]
  | succ m ih =>
    obtain ⟨u, hu⟩ := stepWith_completes kmax s
    rw [runWith, hu] at e
    rw [Nat.add_right_comm, runWith, hu]
    exact ih e

theorem runCommands_append {cs : List Command} {s t : State} (ds : List Command) (e : runCommands cs s = .next t) :
    runCommands (cs ++ ds) s = runCommands ds t := by
  induction cs generalizing s with
  | nil =>
    cases e
    rfl
  | cons c cs ih =>
    obtain ⟨u, hu⟩ := execCommand_completes c s
    rw [runCommands_cons hu] at e
    rw [List.cons_append, runCommands_cons hu, ih e]

/-! ### What a sequence of commands answers -/

/-- Every command of a sequence answers one response of two words, after those that stand there (R38, R103). -/
theorem runCommands_responses (cs : List Command) (s : State) :
    ∃ t new, runCommands cs s = .next t ∧ t.responses = s.responses ++ new ∧ new.length = 2 * cs.length := by
  induction cs generalizing s with
  | nil => exact ⟨s, [], rfl, by rw [List.append_nil], rfl⟩
  | cons c cs ih =>
    obtain ⟨t, status, data, ht⟩ := execCommand_streams c s
    obtain ⟨u, new, hu, hresp, hlen⟩ :=
      ih { t with frame := s.frame, commands := s.commands, responses := s.responses ++ [status, data] }
    refine ⟨u, [status, data] ++ new, ?_, ?_, ?_⟩
    · exact (runCommands_cons (ht s.frame s.commands s.responses)).trans hu
    · rw [hresp, List.append_assoc]
    · simp only [List.length_append, List.length_cons, List.length_nil, hlen]
      omega

/-- A sequence of commands leaves the command stream as it finds it, whatever words stand there. -/
theorem runCommands_commands {cs : List Command} {s t : State} (e : runCommands cs s = .next t) (ws : List Word) :
    runCommands cs { s with commands := ws } = .next { t with commands := ws } := by
  obtain ⟨u, new, hu⟩ := runCommands_streams cs s
  cases e.symm.trans (hu s.frame s.commands s.responses)
  exact hu s.frame ws s.responses

/-! ### The word level over a list of frames -/

theorem frameWords_cons (f : Word × List Word) (fs : List (Word × List Word)) :
    frameWords (f :: fs) = (f.1 :: f.2) ++ frameWords fs := rfl

theorem frameWords_append (fs more : List (Word × List Word)) :
    frameWords (fs ++ more) = frameWords fs ++ frameWords more := by
  rw [frameWords, List.map_append, List.flatten_append, frameWords, frameWords]

/-- From an empty FRAME, one step a word runs the frames at the head of the stream one after the other (R30, R103). -/
theorem runWith_frames (kmax : Nat) {fs : List (Word × List Word)} {rest : List Word} {s : State} (hs : s.frame = [])
    (hfs : ∀ f ∈ fs, IsFrame f) (hc : s.commands = frameWords fs ++ rest) :
    runWith kmax (frameWords fs).length s =
      runCommands (fs.map fun f => decodeFrame kmax f.1 f.2) { s with commands := rest } := by
  induction fs generalizing s with
  | nil =>
    obtain rfl : s.commands = rest := hc
    rfl
  | cons f fs ih =>
    obtain ⟨hf, hfs⟩ := List.forall_mem_cons.mp hfs
    rw [frameWords_cons, List.append_assoc] at hc
    obtain ⟨t, status, data, ht⟩ := execCommand_streams (decodeFrame kmax f.1 f.2) s
    have hfirst := (runWith_frame kmax hs hc hf).trans (ht s.frame (frameWords fs ++ rest) s.responses)
    rw [frameWords_cons, List.length_append, runWith_add _ hfirst, List.map_cons,
      runCommands_cons (ht s.frame rest s.responses)]
    exact ih hs hfs rfl

end Sys2Proof.Machine

/-! The statements of 70_reset_and_hazards.md. -/

namespace Sys2Proof.Proofs

open Sys2Proof.Machine Sys2Proof.Rules

/-- Settles O8: the word level runs both lists as sequences of commands (`runWith_frames`), the whole stream as the one
after the other, and each sequence appends two words a command (`runCommands_responses`). -/
theorem framesRunInOrder : Obligations.FramesRunInOrder := by
  intro kmax s fs more hs hframes hc
  obtain ⟨t, new, ht, htresp, hnew⟩ :=
    runCommands_responses (fs.map fun f => decodeFrame kmax f.1 f.2) { s with commands := [] }
  obtain ⟨u, later, hu, huresp, hlater⟩ :=
    runCommands_responses (more.map fun f => decodeFrame kmax f.1 f.2) t
  rw [List.length_map] at hnew hlater
  refine ⟨t, u, ht, hu, ?_, ?_, ?_, later, huresp, hlater⟩
  · have hfs : ∀ f ∈ fs, IsFrame f := fun f hf => hframes f (List.mem_append_left more hf)
    rw [frameWords_append] at hc
    exact (runWith_frames kmax hs hfs hc).trans (runCommands_commands ht (frameWords more))
  · have hall := runWith_frames kmax (rest := []) hs hframes (by rw [hc, List.append_nil])
    rw [hall, List.map_append, runCommands_append _ ht, hu]
  · rw [htresp, List.length_append, hnew]

/-- Settles O35: the reset event is `resetEvent`, which sets every field but the command stream. -/
theorem resetEvent : Obligations.ResetEvent := by
  intro kmax m s
  rw [applyEvent_reset, Machine.resetEvent]

end Sys2Proof.Proofs
